-- ==== Sys2Proof/Word.lean ====
section
/-! DEFINITION. The machine's one word type: the byte (00_scope.md R9, 10_state.md R21, 20_memory.md R53). -/

namespace Sys2Proof

/-- A byte, a register's contents or a memory cell: an 8-bit pattern, the spec's `u8` (R9). -/
abbrev Byte := BitVec 8

end Sys2Proof
end

