-- ==== Sys2Proof/Config.lean ====
section
/-! DEFINITION. What the spec fixes for every run (the parameters of 00_scope.md R7), the named parameters a
run may set, and the free values: the host's draws (R37, R240) and the state after a fatal condition
(60_exceptions.md R222). -/

namespace Sys2Proof

namespace Config

/-- `MEM_SIZE`: the number of memory bytes (R7, R50). -/
@[simp] abbrev memSize : Nat := 256

/-- `STACK_START`: the value of SP when the stack is empty (R7, R60). -/
@[simp] abbrev stackStart : Nat := 0xFF

/-- `STACK_FLOOR`: the lowest value SP may hold (R7, R61). -/
@[simp] abbrev stackFloor : Nat := 0xE0

/-- `VT_BASE`: the address of vector table entry 0 (R7, R56). -/
@[simp] abbrev vtBase : Nat := 0xD8

/-- `KEY_ADDR`: the keyboard cell (R7, R57). -/
@[simp] abbrev keyAddr : Nat := 0xD7

/-- `PROG_BASE`: the first address the loader fills (R7, R264). -/
@[simp] abbrev progBase : Nat := 0x00

/-- `PROG_LIMIT`: the first address the loader may not fill (R7, R265). -/
@[simp] abbrev progLimit : Nat := 0xD7

/-- `INT_LINES`: the number of interrupt lines (R7, R14). -/
@[simp] abbrev intLines : Nat := 8

/-- The two values of `DIVMOD_ROUNDING` (R7, R128, R129). -/
inductive Rounding where
  | floor
  | trunc
deriving DecidableEq, Repr

/-- The two values of `CALL_LINK` (R7, R188, R189). -/
inductive CallLink where
  | lastByte
  | nextInstr
deriving DecidableEq, Repr

/-- The two forms of `GPR_RESET_POLICY` (R7, R24): what reset leaves in R0 to R4. -/
inductive GprReset where
  | unset
  | value (v : Byte)
deriving DecidableEq, Repr

/-- The named parameters of R7 that an instruction reads. They are fixed for a run; State carries them
(DESIGN CHOICE, log 3; safe: a statement over every state holds under every setting). -/
structure Params where
  rounding : Rounding
  callLink : CallLink
deriving DecidableEq, Repr

/-- The defaults of R7: `Floor` and `LastByte`. -/
def Params.default : Params := ⟨.floor, .lastByte⟩

/-- FREE VALUE (R222, log 6). The byte in place `slot` of the state that the `draw`-th fatal condition leaves:
the spec calls it unspecified, so it has no body and nothing can be proved of it. -/
opaque unspecifiedByte (draw slot : Nat) : Byte

/-- FREE VALUE (R222, log 6). As `unspecifiedByte`, for a place that holds one bit. -/
opaque unspecifiedBit (draw slot : Nat) : Bool

/-- FREE VALUE (R222, log 6). As `unspecifiedByte`, for the instruction pointer: the value is one less, so
that it ranges over -1 to 255 (R27). -/
opaque unspecifiedIp (draw : Nat) : Fin 257

/-- FREE VALUE (R37, R240, R281, log 4). Whether the clock reports a second at poll number `poll`: the host
chooses it freely at every iteration, so it has no body and nothing can be proved of it. -/
opaque hostTick (poll : Nat) : Bool

/-- FREE VALUE (R37, R240, log 4). The key that is there at poll number `poll`, if any: as `hostTick`. -/
opaque hostKey (poll : Nat) : Option Byte

end Config

end Sys2Proof
end

