-- ==== Sys2Proof/Syntax.lean ====
section
/-! DEFINITION. The instructions as syntax: one constructor per row of spec/opcode_table.json
(30_encoding.md R85), with the register operands as names and a literal as a byte (R80 to R83). -/

namespace Sys2Proof

/-- The eight registers (10_state.md R20). `r5` is the interrupt mask IM, `r6` the interrupt status IS and
`r7` the stack pointer SP (R13). -/
inductive Reg where
  | r0 | r1 | r2 | r3 | r4 | r5 | r6 | r7
deriving DecidableEq, Repr

/-- The index of a register, 0 to 7 (R20). -/
@[simp] def Reg.index : Reg → Nat
  | .r0 => 0
  | .r1 => 1
  | .r2 => 2
  | .r3 => 3
  | .r4 => 4
  | .r5 => 5
  | .r6 => 6
  | .r7 => 7

/-- The four instruction formats (R81). -/
inductive Format where
  | f0 | r | rr | ri
deriving DecidableEq, Repr

/-- How many bytes an instruction of a format has (R81). -/
@[simp] def Format.length : Format → Nat
  | .f0 => 1
  | .r => 2
  | .rr => 3
  | .ri => 3

/-- The instruction set (R85), in the order of the opcode map. A register operand is a register, so an
operand byte above 7 (R82) has no term: it ends in a fatal condition while it is fetched (R103). -/
inductive Instr where
  | nop
  | hlt
  | ret
  | iret
  | push (r : Reg)
  | pop (r : Reg)
  | prn (r : Reg)
  | pra (r : Reg)
  | call (r : Reg)
  | int (r : Reg)
  | jmp (r : Reg)
  | jeq (r : Reg)
  | jne (r : Reg)
  | jgt (r : Reg)
  | jlt (r : Reg)
  | jle (r : Reg)
  | jge (r : Reg)
  | ldi (r : Reg) (i : Byte)
  | ld (a b : Reg)
  | st (a b : Reg)
  | add (a b : Reg)
  | sub (a b : Reg)
  | mul (a b : Reg)
  | div (a b : Reg)
  | mod (a b : Reg)
  | inc (r : Reg)
  | dec (r : Reg)
  | cmp (a b : Reg)
  | and (a b : Reg)
  | not (r : Reg)
  | or (a b : Reg)
  | xor (a b : Reg)
  | shl (a b : Reg)
  | shr (a b : Reg)
  | addi (r : Reg) (i : Byte)
deriving DecidableEq, Repr

/-- The format of an instruction (R85). -/
def Instr.format : Instr → Format
  | .nop | .hlt | .ret | .iret => .f0
  | .push _ | .pop _ | .prn _ | .pra _ | .call _ | .int _ => .r
  | .jmp _ | .jeq _ | .jne _ | .jgt _ | .jlt _ | .jle _ | .jge _ => .r
  | .inc _ | .dec _ | .not _ => .r
  | .ld _ _ | .st _ _ | .add _ _ | .sub _ _ | .mul _ _ | .div _ _ | .mod _ _ => .rr
  | .cmp _ _ | .and _ _ | .or _ _ | .xor _ _ | .shl _ _ | .shr _ _ => .rr
  | .ldi _ _ | .addi _ _ => .ri

/-- How many bytes an instruction has (R81). -/
def Instr.length (i : Instr) : Nat := i.format.length

end Sys2Proof
end

