-- ==== Sys2Proof/Machine/State.lean ====
section
/-! DEFINITION. The machine's state as plain data: every piece of state of 10_state.md, the run state and the
fatal conditions of 60_exceptions.md, the host's inputs, and the state after reset (R39, R260). -/

namespace Sys2Proof.Machine

/-- One of R0 to R4: its contents and its hidden valid bit (R24). -/
structure Gpr where
  contents : Byte
  valid : Bool
deriving DecidableEq, Repr

/-- The register file (R20): R0 to R4 with their valid bits, R5 = IM (R22), R6 = IS (R23), R7 = SP (R25). -/
structure RegFile where
  r0 : Gpr
  r1 : Gpr
  r2 : Gpr
  r3 : Gpr
  r4 : Gpr
  im : Byte
  is : Byte
  sp : Byte
deriving DecidableEq, Repr

/-- The flag register FL (R31). -/
structure Flags where
  e : Bool
  l : Bool
  g : Bool
deriving DecidableEq, Repr

/-- The fatal conditions, each with the info it records (R220). -/
inductive Condition where
  /-- Code 1, by the fetch of an opcode: the byte, and `ip`, which is its address (R87, R106). -/
  | unsupportedInstruction (op : Byte) (ip : Int)
  /-- Code 2, by a push or a pop: SP (R62, R63). -/
  | stackOverflow (sp : Byte)
  /-- Code 3, by a pop: SP (R63). -/
  | stackUnderflow (sp : Byte)
  /-- Code 4, by the loader: the address (R265). -/
  | memoryFull (address : Nat)
  /-- Code 5, by the fetch of a byte: the address, always 256 (R29, R102). -/
  | addressOutOfRange (address : Int)
  /-- Code 6, by DIV and MOD: the register indices (R128, R129). -/
  | divisionByZero (a b : Reg)
  /-- Code 7, by the fetch of a register operand: the byte (R82, R103). -/
  | registerIndexOutOfRange (b : Byte)
  /-- Code 8, by a read of R0 to R4: the register (R24). -/
  | unsetRegister (r : Reg)
  /-- Code 9, by INT: the line number (R204). -/
  | invalidInterruptLine (line : Nat)
deriving DecidableEq, Repr

/-- The run state (R35). -/
inductive RunState where
  | running
  | halted
  | faulted (c : Condition)
deriving DecidableEq, Repr

/-- An output event (R36): a number from PRN (R200) or a character from PRA (R202). -/
inductive Event where
  | num (v : Byte)
  | chr (v : Byte)
deriving DecidableEq, Repr

/-- What the host answers at the start of one iteration (R37, R240): whether the clock reports a second, and
the key there is, if any. -/
structure Draw where
  tick : Bool
  key : Option Byte
deriving DecidableEq, Repr

/-- A host with neither tick nor key in this iteration. -/
def Draw.silent : Draw := ⟨false, none⟩

/-- The memory (R50): the bytes that differ from what an unlisted address reads as, by rising address. -/
abbrev Memory := List Host.Cell

/-- The state of the machine. -/
structure State where
  /-- R0 to R7 (R20). -/
  regs : RegFile
  /-- FL (R31). -/
  flags : Flags
  /-- The instruction pointer: the address of the last fetched byte, -1 to 255 (R27). -/
  ip : Int
  /-- Whether an interrupt's handler is running (R34). -/
  servicing : Bool
  /-- The run state (R35). -/
  run : RunState
  /-- The output history, oldest event first (R36). -/
  out : List Event
  /-- The memory (R50). -/
  mem : Memory
  /-- The next address the loader appends at (R264). -/
  loadNext : Nat
  /-- The named parameters of this run (R7, log 3). -/
  params : Config.Params
  /-- The model's own field: the host's draws that are fixed beforehand, the next iteration's first. Where it is
  empty nothing is fixed, and each iteration's draw is free (log 4). -/
  inputs : List Draw
  /-- The model's own field: the number of the next poll, which its free draw is taken by (log 4). -/
  polls : Nat
  /-- The model's own field: which draw of free values the next fatal condition takes (log 6). -/
  freeDraw : Nat
deriving DecidableEq, Repr

/-- Why a step has no next state. A fatal condition is not among them while the run goes on: taking it is a
next state (R221, log 5). -/
inductive Fault where
  /-- Raised by `step` in a state whose run has ended with HLT: no iteration runs (R35, R253). Safe: the
  hardware does nothing here either (log 7). -/
  | runHalted
  /-- Raised by `step` in a state whose run has ended with a fatal condition, which it reports: no iteration
  runs (R35, R221). Safe: the hardware does nothing here either (log 7). -/
  | runFaulted (c : Condition)
deriving DecidableEq, Repr

/-- Why an instruction has no meaning in the model. -/
inductive Refusal where
  /-- Raised by an arm of `exec` for an instruction not modelled yet; no arm does. Safe: the model stops. -/
  | notModelled (mnemonic : String)
deriving DecidableEq, Repr

/-- R0 to R4 as `GPR_RESET_POLICY` leaves them (R24, R39). An unset register's contents are 0x00
(DESIGN CHOICE, log 1; unsafe only for a claim about contents no instruction can read). -/
def Gpr.reset : Config.GprReset → Gpr
  | .unset => ⟨0x00, false⟩
  | .value v => ⟨v, true⟩

/-- The register file after reset (R39). -/
def RegFile.reset (policy : Config.GprReset) : RegFile :=
  { r0 := Gpr.reset policy, r1 := Gpr.reset policy, r2 := Gpr.reset policy, r3 := Gpr.reset policy,
    r4 := Gpr.reset policy, im := 0x00, is := 0x00, sp := BitVec.ofNat 8 Config.stackStart }

/-- The state after reset and before the loader (R39, R260, R261 step 1), under the named parameters. No draw of
the host is fixed, so the first poll's tick and key are free (R262, log 4). -/
def State.resetUnder (policy : Config.GprReset) (params : Config.Params) : State :=
  { regs := RegFile.reset policy
    flags := ⟨false, false, false⟩
    ip := -1
    servicing := false
    run := .running
    out := []
    mem := []
    loadNext := Config.progBase
    params := params
    inputs := []
    polls := 0
    freeDraw := 0 }

/-- The state after reset under the default parameters (R7, R39). -/
def State.reset : State := State.resetUnder .unset Config.Params.default

end Sys2Proof.Machine
end

