-- ==== Sys2Proof/Machine/Flags.lean ====
section
/-! DEFINITION. Every flag computation of the spec: what CMP sets (41_alu.md R140), the composite byte
(10_state.md R33) and the conditions of the six conditional jumps (43_control.md R182 to R187). -/

namespace Sys2Proof.Machine

/-- The flags CMP sets from two register values, compared as signed numbers (R140). -/
def Flags.compare (va vb : Byte) : Flags :=
  { e := decide (va.toInt = vb.toInt), l := decide (va.toInt < vb.toInt), g := decide (va.toInt > vb.toInt) }

/-- `FL_BYTE`: the composite value interrupt entry pushes, E in bit 0, G in bit 1, L in bit 2 (R33). -/
def Flags.toByte (f : Flags) : Byte := BitVec.ofNat 8 (f.e.toNat + 2 * f.g.toNat + 4 * f.l.toNat)

/-- The flags IRET takes from a popped byte; bits 7 to 3 are ignored (R33). -/
def Flags.ofByte (b : Byte) : Flags := { e := b.getLsbD 0, g := b.getLsbD 1, l := b.getLsbD 2 }

/-- JEQ jumps when `FL.E = 1` (R182). -/
def Flags.jeq (f : Flags) : Bool := f.e

/-- JNE jumps when `FL.E = 0` (R183). -/
def Flags.jne (f : Flags) : Bool := !f.e

/-- JGT jumps when `FL.G = 1` (R184). -/
def Flags.jgt (f : Flags) : Bool := f.g

/-- JLT jumps when `FL.L = 1` (R185). -/
def Flags.jlt (f : Flags) : Bool := f.l

/-- JLE jumps when `FL.L = 1` or `FL.E = 1`, never when "not G" alone (R186). -/
def Flags.jle (f : Flags) : Bool := f.l || f.e

/-- JGE jumps when `FL.G = 1` or `FL.E = 1` (R187). -/
def Flags.jge (f : Flags) : Bool := f.g || f.e

end Sys2Proof.Machine
end

