-- ==== Sys2Proof/Machine/Operands.lean ====
section
/-! DEFINITION. How a pattern is read as a number or an address (00_scope.md R10, 20_memory.md R51), and the
pure functions of the ALU (41_alu.md). -/

namespace Sys2Proof.Machine

/-- `uval`: the unsigned reading, 0 to 255 (R10). -/
@[simp] abbrev uval (v : Byte) : Nat := v.toNat

/-- `sval`: the two's complement reading, -128 to 127 (R10). -/
@[simp] abbrev sval (v : Byte) : Int := v.toInt

/-- `trunc8`: an integer modulo 256 (R10). -/
@[simp] abbrev trunc8 (i : Int) : Byte := BitVec.ofInt 8 i

/-- `addr`: the memory address a register value names (R51). -/
@[simp] abbrev addr (v : Byte) : Nat := uval v

namespace Alu

/-- ADD (R125) and ADDI (R150). -/
def add (va vb : Byte) : Byte := trunc8 (uval va + uval vb)

/-- SUB (R126). -/
def sub (va vb : Byte) : Byte := trunc8 (uval va - uval vb)

/-- MUL: the low byte of the signed product (R127). -/
def mul (va vb : Byte) : Byte := trunc8 (sval va * sval vb)

/-- The quotient of DIV for a divisor that is not zero, under `DIVMOD_ROUNDING` (R128). -/
def quotient (rounding : Config.Rounding) (va vb : Byte) : Byte :=
  match rounding with
  | .floor => trunc8 ((sval va).fdiv (sval vb))
  | .trunc => trunc8 ((sval va).tdiv (sval vb))

/-- The remainder of MOD for a divisor that is not zero, under `DIVMOD_ROUNDING` (R129). -/
def remainder (rounding : Config.Rounding) (va vb : Byte) : Byte :=
  match rounding with
  | .floor => trunc8 ((sval va).fmod (sval vb))
  | .trunc => trunc8 ((sval va).tmod (sval vb))

/-- INC (R131). -/
def inc (v : Byte) : Byte := trunc8 (uval v + 1)

/-- DEC (R132). -/
def dec (v : Byte) : Byte := trunc8 (uval v - 1)

/-- AND (R141). -/
def and (va vb : Byte) : Byte := va &&& vb

/-- NOT: `v ^ 0xFF` (R142). -/
def not (v : Byte) : Byte := v ^^^ 0xFF

/-- OR (R143). -/
def or (va vb : Byte) : Byte := va ||| vb

/-- XOR (R144). -/
def xor (va vb : Byte) : Byte := va ^^^ vb

/-- SHL: the count is read unsigned, 0 to 255 (R145). -/
def shl (va vb : Byte) : Byte := trunc8 ((uval va : Int) * 2 ^ uval vb)

/-- SHR: arithmetic, the count read unsigned, 0 to 255 (R146). -/
def shr (va vb : Byte) : Byte := trunc8 (sval va >>> uval vb)

end Alu

end Sys2Proof.Machine
end

