-- ==== Sys2Proof/Machine/Ops.lean ====
section
/-! DEFINITION. The named operations over memory, registers and the stack (10_state.md, 20_memory.md), taking
a fatal condition (60_exceptions.md R221, R222), the interrupt controller from raise to return (R230 to R236,
R241, R242) and the loader (70_reset_and_hazards.md R264 to R266). -/

namespace Sys2Proof.Machine

/-! ### Memory -/

/-- What a byte that nothing has written reads as: the reset contents of memory (R39, D16). -/
@[simp] abbrev Memory.unlisted : Byte := 0x00

/-- The canonical form: rising addresses inside the 256 bytes (R50), no byte listed that reads as unlisted. -/
abbrev Memory.wf (m : Memory) : Prop :=
  m.Pairwise (fun c d => c.1 < d.1) ∧ ∀ c ∈ m, c.1 < Config.memSize ∧ c.2 ≠ Memory.unlisted

/-- `MemRead(a, 1)` (R53, R66). -/
def Memory.read : Memory → Nat → Byte
  | [], _ => Memory.unlisted
  | (k, b) :: rest, a => if a = k then b else Memory.read rest a

/-- `MemWrite(a, 1, v)`, which changes only the byte it names (R53, R66). -/
def Memory.write : Memory → Nat → Byte → Memory
  | [], a, v => if v = Memory.unlisted then [] else [(a, v)]
  | (k, b) :: rest, a, v =>
    if a < k then (if v = Memory.unlisted then (k, b) :: rest else (a, v) :: (k, b) :: rest)
    else if a = k then (if v = Memory.unlisted then rest else (a, v) :: rest)
    else (k, b) :: Memory.write rest a v

/-- The memory that holds `f a` at every address `a` (R50). -/
def Memory.ofFn (f : Nat → Byte) : Memory :=
  (List.range Config.memSize).filterMap fun a => if f a = Memory.unlisted then none else some (a, f a)

/-! ### Registers -/

/-- The contents of a register, whether or not it is set (R20). -/
def RegFile.get (f : RegFile) : Reg → Byte
  | .r0 => f.r0.contents
  | .r1 => f.r1.contents
  | .r2 => f.r2.contents
  | .r3 => f.r3.contents
  | .r4 => f.r4.contents
  | .r5 => f.im
  | .r6 => f.is
  | .r7 => f.sp

/-- Whether a register is set: the valid bit of R0 to R4; R5, R6 and R7 always are (R24). -/
def RegFile.isSet (f : RegFile) : Reg → Bool
  | .r0 => f.r0.valid
  | .r1 => f.r1.valid
  | .r2 => f.r2.valid
  | .r3 => f.r3.valid
  | .r4 => f.r4.valid
  | .r5 => true
  | .r6 => true
  | .r7 => true

/-- Write a register, which sets its valid bit (R24). -/
def RegFile.set (f : RegFile) (r : Reg) (v : Byte) : RegFile :=
  match r with
  | .r0 => { f with r0 := ⟨v, true⟩ }
  | .r1 => { f with r1 := ⟨v, true⟩ }
  | .r2 => { f with r2 := ⟨v, true⟩ }
  | .r3 => { f with r3 := ⟨v, true⟩ }
  | .r4 => { f with r4 := ⟨v, true⟩ }
  | .r5 => { f with im := v }
  | .r6 => { f with is := v }
  | .r7 => { f with sp := v }

/-- The contents of a register of the state. -/
def State.reg (s : State) (r : Reg) : Byte := s.regs.get r

/-- Whether a register of the state is set (R24). -/
def State.isSet (s : State) (r : Reg) : Bool := s.regs.isSet r

/-- `x[r]`: a register read, which raises `UnsetRegister` on a register that is not set (R11, R24). -/
def State.readReg (s : State) (r : Reg) : Except Condition Byte :=
  if s.isSet r then .ok (s.reg r) else .error (.unsetRegister r)

/-- `x[r] <- v` (R11, R24). -/
def State.setReg (s : State) (r : Reg) (v : Byte) : State := { s with regs := s.regs.set r v }

/-! ### The other fields, one update each -/

/-- `ip <- i` (R27). -/
def State.setIp (s : State) (i : Int) : State := { s with ip := i }

/-- `pc <- t`: the next fetch reads address `t` (R11, R28, R180). -/
def State.jumpTo (s : State) (t : Nat) : State := s.setIp (t - 1)

/-- Write all three flags at once (R31). -/
def State.setFlags (s : State) (f : Flags) : State := { s with flags := f }

/-- Write the hidden bit `servicing` (R34). -/
def State.setServicing (s : State) (b : Bool) : State := { s with servicing := b }

/-- Write the run state (R35). -/
def State.setRun (s : State) (r : RunState) : State := { s with run := r }

/-- `emit(e)`: the event goes to the end of the output history (R36, R245). -/
def State.emit (s : State) (e : Event) : State := { s with out := s.out ++ [e] }

/-- `MemRead(a, 1)` (R53). -/
def State.readByte (s : State) (a : Nat) : Byte := s.mem.read a

/-- `MemWrite(a, 1, v)` (R53). -/
def State.writeByte (s : State) (a : Nat) (v : Byte) : State := { s with mem := s.mem.write a v }

/-! ### The stack -/

/-- `Push(v)` (R62): the bound is checked first, so an overflow writes nothing. -/
def State.push (s : State) (v : Byte) : Except Condition State :=
  let sp := s.reg .r7
  if (uval sp : Int) - 1 < Config.stackFloor then .error (.stackOverflow sp)
  else .ok ((s.writeByte (uval sp) v).setReg .r7 (trunc8 (uval sp - 1)))

/-- `Pop()` (R63): the popped byte, and the state with SP one higher; the byte stays in memory. -/
def State.pop (s : State) : Except Condition (Byte × State) :=
  let sp := s.reg .r7
  if uval sp ≥ Config.stackStart then .error (.stackUnderflow sp)
  else if uval sp < Config.stackFloor then .error (.stackOverflow sp)
  else .ok (s.readByte (uval sp + 1), s.setReg .r7 (trunc8 (uval sp + 1)))

/-! ### Taking a fatal condition -/

/-- The code of a fatal condition (R220). -/
def Condition.code : Condition → Nat
  | .unsupportedInstruction _ _ => 1
  | .stackOverflow _ => 2
  | .stackUnderflow _ => 3
  | .memoryFull _ => 4
  | .addressOutOfRange _ => 5
  | .divisionByZero _ _ => 6
  | .registerIndexOutOfRange _ => 7
  | .unsetRegister _ => 8
  | .invalidInterruptLine _ => 9

/-- The registers a fatal condition leaves: unspecified, so free values (R222, log 6). -/
def RegFile.unspecified (draw : Nat) : RegFile :=
  { r0 := ⟨Config.unspecifiedByte draw 0, Config.unspecifiedBit draw 0⟩
    r1 := ⟨Config.unspecifiedByte draw 1, Config.unspecifiedBit draw 1⟩
    r2 := ⟨Config.unspecifiedByte draw 2, Config.unspecifiedBit draw 2⟩
    r3 := ⟨Config.unspecifiedByte draw 3, Config.unspecifiedBit draw 3⟩
    r4 := ⟨Config.unspecifiedByte draw 4, Config.unspecifiedBit draw 4⟩
    im := Config.unspecifiedByte draw 5
    is := Config.unspecifiedByte draw 6
    sp := Config.unspecifiedByte draw 7 }

/-- The flags a fatal condition leaves: unspecified, so free values (R222, log 6). -/
def Flags.unspecified (draw : Nat) : Flags :=
  { e := Config.unspecifiedBit draw 5, l := Config.unspecifiedBit draw 6, g := Config.unspecifiedBit draw 7 }

/-- The memory a fatal condition leaves: unspecified, so free values (R222, log 6). -/
def Memory.unspecified (draw : Nat) : Memory := Memory.ofFn fun a => Config.unspecifiedByte draw (8 + a)

/-- `raise C(info)`, the one way a fatal condition is taken (R221): the run ends in `Faulted(C)` and the
output history stays as it was; registers, flags, `ip`, `servicing` and memory become unspecified (R222). -/
def State.raise (s : State) (c : Condition) : State :=
  { s with
    run := .faulted c
    regs := RegFile.unspecified s.freeDraw
    flags := Flags.unspecified s.freeDraw
    ip := ((Config.unspecifiedIp s.freeDraw).val : Int) - 1
    servicing := Config.unspecifiedBit s.freeDraw 8
    mem := Memory.unspecified s.freeDraw
    freeDraw := s.freeDraw + 1 }

/-- The outcome of an instruction or an entry that started in `s`: the state it leads to, or the state its
fatal condition leads to. Nothing it did before a raise is kept (R12, R222). -/
def settle (s : State) : Except Condition State → Host.Outcome State Fault Refusal
  | .ok t => .next t
  | .error c => .next (s.raise c)

/-! ### The interrupt controller -/

/-- `raise(line)`: set bit `line` of the status register (R230). -/
def State.raiseLine (s : State) (line : Nat) : State := s.setReg .r6 (s.reg .r6 ||| (1#8 <<< line))

/-- The timer poll (R241). -/
def State.pollTimer (s : State) (tick : Bool) : State :=
  if tick && s.readByte (Config.vtBase + 0) != 0x00 then s.raiseLine 0 else s

/-- The keyboard poll (R242). -/
def State.pollKey (s : State) : Option Byte → State
  | none => s
  | some k => (s.writeByte Config.keyAddr k).raiseLine 1

/-- What the host answers at the next iteration: the first of the draws fixed beforehand, or else a free draw
of its own for this poll (R37, R240, R281, log 4). -/
def State.nextDraw (s : State) : Draw :=
  match s.inputs with
  | [] => ⟨Config.hostTick s.polls, Config.hostKey s.polls⟩
  | d :: _ => d

/-- The draw of this iteration is used up (R240, log 4). -/
def State.useDraw (s : State) : State := { s with inputs := s.inputs.tail, polls := s.polls + 1 }

/-- `Poll(tick, key)`, which uses up the draw: the timer, then the keyboard (R100, R241, R242). -/
def State.poll (s : State) : State :=
  let d := s.nextDraw
  (s.useDraw.pollTimer d.tick).pollKey d.key

/-- Whether the controller preempts: a line is pending and enabled, and none is being serviced (R231). -/
def State.preempts (s : State) : Bool := (s.reg .r5 &&& s.reg .r6) != 0 && !s.servicing

/-- The lowest-numbered line that is set in both mask and status (R232). -/
def lowestLine (mask status : Byte) : Option Nat :=
  (List.range Config.intLines).find? fun i => mask.getLsbD i && status.getLsbD i

/-- Read and push registers in order, the read's check before the push's (R223, R233). -/
def State.pushRegs (s : State) : List Reg → Except Condition State
  | [] => .ok s
  | r :: rest => do
    let v ← s.readReg r
    let t ← s.push v
    t.pushRegs rest

/-- Interrupt entry on line `i` (R233 to R235): the status bit is cleared, `ip`, the flags and R0 to R6 are
pushed, and control goes to the vector table's entry with `servicing` set. -/
def State.enterLine (s : State) (i : Nat) : Except Condition State := do
  let s₁ := s.setReg .r6 (s.reg .r6 &&& ~~~(1#8 <<< i))
  let s₂ ← s₁.push (trunc8 s₁.ip)
  let s₃ ← s₂.push s₂.flags.toByte
  let s₄ ← s₃.pushRegs [.r0, .r1, .r2, .r3, .r4, .r5, .r6]
  return (s₄.jumpTo (addr (s₄.readByte (Config.vtBase + i)))).setServicing true

/-- `InterruptEntry()` on the line of highest priority (R232, R233). With no line pending and enabled there
is nothing to enter and the state stays (never reached: R231 asks first; log 13). -/
def State.interruptEntry (s : State) : Except Condition State :=
  match lowestLine (s.reg .r5) (s.reg .r6) with
  | none => .ok s
  | some i => s.enterLine i

/-- Pop registers in order; each write sets the register (R206). -/
def State.popRegs (s : State) : List Reg → Except Condition State
  | [] => .ok s
  | r :: rest => do
    let (v, t) ← s.pop
    (t.setReg r v).popRegs rest

/-- The return from an interrupt (R206, R236): pop R6 down to R0, the flags and `ip`, clear `servicing`. -/
def State.interruptReturn (s : State) : Except Condition State := do
  let s₁ ← s.popRegs [.r6, .r5, .r4, .r3, .r2, .r1, .r0]
  let (b, s₂) ← s₁.pop
  let (a, s₃) ← (s₂.setFlags (Flags.ofByte b)).pop
  return (s₃.setIp (uval a)).setServicing false

/-! ### The loader -/

/-- `ramLoad(byte)`: append at the next free address, or raise `MemoryFull` at `PROG_LIMIT` (R264, R265).
Once the run has ended, so that it never starts, nothing more is loaded (log 9). -/
def State.ramLoad (s : State) (b : Byte) : State :=
  match s.run with
  | .running =>
    if s.loadNext ≥ Config.progLimit then s.raise (.memoryFull s.loadNext)
    else { s.writeByte s.loadNext b with loadNext := s.loadNext + 1 }
  | .halted => s
  | .faulted _ => s

/-- Load bytes one after the other (R264). -/
def State.loadBytes (s : State) : List Byte → State
  | [] => s
  | b :: rest => (s.ramLoad b).loadBytes rest

/-- The whole load of a program: its bytes, then the terminating HLT (R261 step 2, R266). -/
def State.loadProgram (s : State) (program : List Byte) : State := s.loadBytes (program ++ [0x01])

end Sys2Proof.Machine
end

