-- ==== Sys2Proof/Machine/Arith.lean ====
section
/-! DEFINITION. The arithmetic, logic and compare family (41_alu.md). -/

namespace Sys2Proof.Machine

/-- The two-register shape: both reads, then the write (R121). -/
def twoReg (f : Byte → Byte → Byte) (a b : Reg) (s : State) : Host.Outcome State Fault Refusal :=
  settle s do
    let va ← s.readReg a
    let vb ← s.readReg b
    return s.setReg a (f va vb)

/-- The two-register shape of DIV and MOD, which raises on a zero divisor before it writes (R128, R129). -/
def twoRegDivision (f : Byte → Byte → Byte) (a b : Reg) (s : State) : Host.Outcome State Fault Refusal :=
  settle s do
    let va ← s.readReg a
    let vb ← s.readReg b
    if sval vb = 0 then .error (.divisionByZero a b) else .ok (s.setReg a (f va vb))

/-- The one-register shape (R122). -/
def oneReg (f : Byte → Byte) (r : Reg) (s : State) : Host.Outcome State Fault Refusal :=
  settle s do
    let v ← s.readReg r
    return s.setReg r (f v)

/-- The immediate shape (R123). -/
def immReg (f : Byte → Byte → Byte) (r : Reg) (i : Byte) (s : State) : Host.Outcome State Fault Refusal :=
  settle s do
    let v ← s.readReg r
    return s.setReg r (f v i)

/-- The compare shape: two reads, and only the flags are written (R124). -/
def compareRegs (f : Byte → Byte → Flags) (a b : Reg) (s : State) : Host.Outcome State Fault Refusal :=
  settle s do
    let va ← s.readReg a
    let vb ← s.readReg b
    return s.setFlags (f va vb)

/-- ADD (R125). -/
def execAdd (a b : Reg) (s : State) : Host.Outcome State Fault Refusal := twoReg Alu.add a b s

/-- SUB (R126). -/
def execSub (a b : Reg) (s : State) : Host.Outcome State Fault Refusal := twoReg Alu.sub a b s

/-- MUL (R127). -/
def execMul (a b : Reg) (s : State) : Host.Outcome State Fault Refusal := twoReg Alu.mul a b s

/-- DIV, under the run's `DIVMOD_ROUNDING` (R128). -/
def execDiv (a b : Reg) (s : State) : Host.Outcome State Fault Refusal :=
  twoRegDivision (Alu.quotient s.params.rounding) a b s

/-- MOD, under the run's `DIVMOD_ROUNDING` (R129). -/
def execMod (a b : Reg) (s : State) : Host.Outcome State Fault Refusal :=
  twoRegDivision (Alu.remainder s.params.rounding) a b s

/-- INC (R131). -/
def execInc (r : Reg) (s : State) : Host.Outcome State Fault Refusal := oneReg Alu.inc r s

/-- DEC (R132). -/
def execDec (r : Reg) (s : State) : Host.Outcome State Fault Refusal := oneReg Alu.dec r s

/-- CMP: the signed comparison of the two registers (R140). -/
def execCmp (a b : Reg) (s : State) : Host.Outcome State Fault Refusal := compareRegs Flags.compare a b s

/-- AND (R141). -/
def execAnd (a b : Reg) (s : State) : Host.Outcome State Fault Refusal := twoReg Alu.and a b s

/-- NOT (R142). -/
def execNot (r : Reg) (s : State) : Host.Outcome State Fault Refusal := oneReg Alu.not r s

/-- OR (R143). -/
def execOr (a b : Reg) (s : State) : Host.Outcome State Fault Refusal := twoReg Alu.or a b s

/-- XOR (R144). -/
def execXor (a b : Reg) (s : State) : Host.Outcome State Fault Refusal := twoReg Alu.xor a b s

/-- SHL (R145). -/
def execShl (a b : Reg) (s : State) : Host.Outcome State Fault Refusal := twoReg Alu.shl a b s

/-- SHR (R146). -/
def execShr (a b : Reg) (s : State) : Host.Outcome State Fault Refusal := twoReg Alu.shr a b s

/-- ADDI (R150). -/
def execAddi (r : Reg) (i : Byte) (s : State) : Host.Outcome State Fault Refusal := immReg Alu.add r i s

end Sys2Proof.Machine
end

