-- ==== Sys2Proof/Machine/Control.lean ====
section
/-! DEFINITION. Control transfer (43_control.md). -/

namespace Sys2Proof.Machine

/-- The shape of the conditional jumps: the register is read only when the jump is taken, and a jump not
taken leaves `ip` on its operand byte (R182). -/
def jumpIf (taken : Bool) (r : Reg) (s : State) : Host.Outcome State Fault Refusal :=
  settle s (if taken then do
      let t ← s.readReg r
      return s.jumpTo (addr t)
    else .ok s)

/-- JMP (R181). -/
def execJmp (r : Reg) (s : State) : Host.Outcome State Fault Refusal :=
  settle s do
    let t ← s.readReg r
    return s.jumpTo (addr t)

/-- JEQ (R182). -/
def execJeq (r : Reg) (s : State) : Host.Outcome State Fault Refusal := jumpIf s.flags.jeq r s

/-- JNE (R183). -/
def execJne (r : Reg) (s : State) : Host.Outcome State Fault Refusal := jumpIf s.flags.jne r s

/-- JGT (R184). -/
def execJgt (r : Reg) (s : State) : Host.Outcome State Fault Refusal := jumpIf s.flags.jgt r s

/-- JLT (R185). -/
def execJlt (r : Reg) (s : State) : Host.Outcome State Fault Refusal := jumpIf s.flags.jlt r s

/-- JLE (R186). -/
def execJle (r : Reg) (s : State) : Host.Outcome State Fault Refusal := jumpIf s.flags.jle r s

/-- JGE (R187). -/
def execJge (r : Reg) (s : State) : Host.Outcome State Fault Refusal := jumpIf s.flags.jge r s

/-- The byte CALL pushes, from `ip` on CALL's operand byte, under `CALL_LINK` (R188). -/
def callLink (link : Config.CallLink) (ip : Int) : Byte :=
  match link with
  | .lastByte => trunc8 ip
  | .nextInstr => trunc8 (ip + 1)

/-- What RET makes of the popped byte, under `CALL_LINK` (R189). -/
def returnIp (link : Config.CallLink) (b : Byte) : Int :=
  match link with
  | .lastByte => uval b
  | .nextInstr => uval b - 1

/-- CALL: the target is read before the push, and an overflow makes no jump (R188). -/
def execCall (r : Reg) (s : State) : Host.Outcome State Fault Refusal :=
  settle s do
    let t ← s.readReg r
    let u ← s.push (callLink s.params.callLink s.ip)
    return u.jumpTo (addr t)

/-- RET (R189). -/
def execRet (s : State) : Host.Outcome State Fault Refusal :=
  settle s do
    let (b, t) ← s.pop
    return t.setIp (returnIp s.params.callLink b)

end Sys2Proof.Machine
end

