-- ==== Sys2Proof/Machine/Data.lean ====
section
/-! DEFINITION. Data movement and the stack instructions (42_data_stack.md). -/

namespace Sys2Proof.Machine

/-- LDI: no register is read (R161). -/
def execLdi (r : Reg) (i : Byte) (s : State) : Host.Outcome State Fault Refusal := .next (s.setReg r i)

/-- LD: the address is in register `b`, and register `a` need not be set (R162). -/
def execLd (a b : Reg) (s : State) : Host.Outcome State Fault Refusal :=
  settle s do
    let vb ← s.readReg b
    return s.setReg a (s.readByte (addr vb))

/-- ST: the address is in register `a`, the value in register `b`; no address is protected (R59, R163). -/
def execSt (a b : Reg) (s : State) : Host.Outcome State Fault Refusal :=
  settle s do
    let va ← s.readReg a
    let vb ← s.readReg b
    return s.writeByte (addr va) vb

/-- PUSH: the register is read before SP changes (R164). -/
def execPush (r : Reg) (s : State) : Host.Outcome State Fault Refusal :=
  settle s do
    let v ← s.readReg r
    s.push v

/-- POP: the register is written after SP changes, so `POP R7` leaves the popped byte in it (R165). -/
def execPop (r : Reg) (s : State) : Host.Outcome State Fault Refusal :=
  settle s do
    let (v, t) ← s.pop
    return t.setReg r v

end Sys2Proof.Machine
end

