-- ==== Sys2Proof/Machine/Io.lean ====
section
/-! DEFINITION. The output and interrupt instructions, and the text of an output event
(44_io_interrupt.md). -/

namespace Sys2Proof.Machine

/-- PRN (R200). -/
def execPrn (r : Reg) (s : State) : Host.Outcome State Fault Refusal :=
  settle s do
    let v ← s.readReg r
    return s.emit (.num v)

/-- PRA (R202). -/
def execPra (r : Reg) (s : State) : Host.Outcome State Fault Refusal :=
  settle s do
    let v ← s.readReg r
    return s.emit (.chr v)

/-- INT: a line above 7 raises; otherwise its status bit is set, and nothing is entered yet (R204). -/
def execInt (r : Reg) (s : State) : Host.Outcome State Fault Refusal :=
  settle s do
    let v ← s.readReg r
    if uval v > 7 then .error (.invalidInterruptLine (uval v)) else .ok (s.raiseLine (uval v))

/-- IRET: the nine pops whether or not a handler runs (R206, R207). -/
def execIret (s : State) : Host.Outcome State Fault Refusal := settle s s.interruptReturn

/-! ### The text of an event -/

/-- The decimal numeral of a number below 1000, with no leading zeros (R201). -/
def decimal (n : Nat) : List Char :=
  let digit (d : Nat) : Char := Char.ofNat (48 + d % 10)
  if n < 10 then [digit n]
  else if n < 100 then [digit (n / 10), digit n]
  else [digit (n / 100), digit (n / 10), digit n]

/-- The text of an event: the signed decimal numeral of a number (R201), or the one character whose code is
the byte (R203). What separates the texts and how a code outside 0x20 to 0x7E is shown is the host's (log 15). -/
def Event.text : Event → List Char
  | .num v => if sval v < 0 then '-' :: decimal (sval v).natAbs else decimal (sval v).natAbs
  | .chr v => [Char.ofNat (uval v)]

end Sys2Proof.Machine
end

