-- ==== Sys2Proof/Machine/System.lean ====
section
/-! DEFINITION. The dispatcher's own instructions, NOP and HLT (40_dispatcher.md R110, R111). -/

namespace Sys2Proof.Machine

/-- NOP: only the opcode fetch happens (R110). -/
def execNop (s : State) : Host.Outcome State Fault Refusal := .next s

/-- HLT: `run <- Halted`; `ip` stays on the HLT byte and `servicing` stays as it is (R111). -/
def execHlt (s : State) : Host.Outcome State Fault Refusal := .next (s.setRun .halted)

end Sys2Proof.Machine
end

