-- ==== Sys2Proof/Machine/Dispatch.lean ====
section
/-! DEFINITION. The dispatch table as one match: each instruction of the opcode map runs its own meaning
(30_encoding.md R85, 40_dispatcher.md R105). -/

namespace Sys2Proof.Machine

/-- `Execute(op, operands)` (R104): `ip` stands on the instruction's last byte. -/
def exec (i : Instr) (s : State) : Host.Outcome State Fault Refusal :=
  match i with
  | .nop => Sys2Proof.Machine.execNop s
  | .hlt => Sys2Proof.Machine.execHlt s
  | .ret => Sys2Proof.Machine.execRet s
  | .iret => Sys2Proof.Machine.execIret s
  | .push r => Sys2Proof.Machine.execPush r s
  | .pop r => Sys2Proof.Machine.execPop r s
  | .prn r => Sys2Proof.Machine.execPrn r s
  | .pra r => Sys2Proof.Machine.execPra r s
  | .call r => Sys2Proof.Machine.execCall r s
  | .int r => Sys2Proof.Machine.execInt r s
  | .jmp r => Sys2Proof.Machine.execJmp r s
  | .jeq r => Sys2Proof.Machine.execJeq r s
  | .jne r => Sys2Proof.Machine.execJne r s
  | .jgt r => Sys2Proof.Machine.execJgt r s
  | .jlt r => Sys2Proof.Machine.execJlt r s
  | .jle r => Sys2Proof.Machine.execJle r s
  | .jge r => Sys2Proof.Machine.execJge r s
  | .ldi r k => Sys2Proof.Machine.execLdi r k s
  | .ld a b => Sys2Proof.Machine.execLd a b s
  | .st a b => Sys2Proof.Machine.execSt a b s
  | .add a b => Sys2Proof.Machine.execAdd a b s
  | .sub a b => Sys2Proof.Machine.execSub a b s
  | .mul a b => Sys2Proof.Machine.execMul a b s
  | .div a b => Sys2Proof.Machine.execDiv a b s
  | .mod a b => Sys2Proof.Machine.execMod a b s
  | .inc r => Sys2Proof.Machine.execInc r s
  | .dec r => Sys2Proof.Machine.execDec r s
  | .cmp a b => Sys2Proof.Machine.execCmp a b s
  | .and a b => Sys2Proof.Machine.execAnd a b s
  | .not r => Sys2Proof.Machine.execNot r s
  | .or a b => Sys2Proof.Machine.execOr a b s
  | .xor a b => Sys2Proof.Machine.execXor a b s
  | .shl a b => Sys2Proof.Machine.execShl a b s
  | .shr a b => Sys2Proof.Machine.execShr a b s
  | .addi r k => Sys2Proof.Machine.execAddi r k s

end Sys2Proof.Machine
end

