-- ==== Sys2Proof/WellFormed.lean ====
section
/-! DEFINITION. Which byte strings are one whole instruction, said from 30_encoding.md R81, R82, R85 and R87
alone and without the decoder. Every term of `Instr` is well formed by its type (a register operand is one of
the eight registers, a literal is any byte, R83), so the checks are on the bytes. -/

namespace Sys2Proof

/-- The format of an opcode byte, `none` for the 221 illegal values (R85, R87). -/
def opcodeFormat (op : Byte) : Option Format :=
  let n := op.toNat
  if n = 0x00 ∨ n = 0x01 ∨ n = 0x11 ∨ n = 0x13 then some .f0
  else if (0x45 ≤ n ∧ n ≤ 0x48) ∨ n = 0x50 ∨ n = 0x52 ∨ (0x54 ≤ n ∧ n ≤ 0x5A) then some .r
  else if n = 0xA5 ∨ n = 0xA6 ∨ n = 0xA9 then some .r
  else if n = 0x82 ∨ n = 0xB0 then some .ri
  else if n = 0x83 ∨ n = 0x84 ∨ (0xA0 ≤ n ∧ n ≤ 0xAD) then some .rr
  else none

/-- A register operand byte: bits 7 to 3 are zero (R82). -/
def isRegisterByte (b : Byte) : Bool := b.toNat ≤ 7

/-- The operand bytes an instruction of a format may have: as many as the format says (R81), each register
operand in range (R82). -/
def wellFormedOperands : Format → List Byte → Bool
  | .f0, [] => true
  | .r, [r] => isRegisterByte r
  | .rr, [a, b] => isRegisterByte a && isRegisterByte b
  | .ri, [r, _] => isRegisterByte r
  | _, _ => false

/-- The bytes are exactly one instruction: a legal opcode and that opcode's operands (R85, R88). -/
def wellFormed : List Byte → Bool
  | [] => false
  | op :: operands =>
    match opcodeFormat op with
    | none => false
    | some f => wellFormedOperands f operands

end Sys2Proof
end

