-- ==== Sys2Proof/Decode.lean ====
section
/-! DEFINITION. The decoder, from bytes to an instruction or a named rejection (30_encoding.md R80 to R89,
40_dispatcher.md R104 to R106), and after it the encoder, from the same table (R85). -/

namespace Sys2Proof

/-- The register a register operand byte names, `none` above 0x07 (R82). -/
def Reg.ofByte (b : Byte) : Option Reg :=
  match b.toNat with
  | 0 => some .r0
  | 1 => some .r1
  | 2 => some .r2
  | 3 => some .r3
  | 4 => some .r4
  | 5 => some .r5
  | 6 => some .r6
  | 7 => some .r7
  | _ => none

/-- What the dispatch table holds for a legal opcode (R105): the operands its instruction takes, and the
instruction they make. -/
inductive Handler where
  | f0 (i : Instr)
  | r (make : Reg → Instr)
  | rr (make : Reg → Reg → Instr)
  | ri (make : Reg → Byte → Instr)

/-- The dispatch table (R85, R105). An opcode it does not list is illegal (R87). -/
def opcodeHandler (op : Byte) : Option Handler :=
  match op.toNat with
  | 0x00 => some (.f0 .nop)
  | 0x01 => some (.f0 .hlt)
  | 0x11 => some (.f0 .ret)
  | 0x13 => some (.f0 .iret)
  | 0x45 => some (.r .push)
  | 0x46 => some (.r .pop)
  | 0x47 => some (.r .prn)
  | 0x48 => some (.r .pra)
  | 0x50 => some (.r .call)
  | 0x52 => some (.r .int)
  | 0x54 => some (.r .jmp)
  | 0x55 => some (.r .jeq)
  | 0x56 => some (.r .jne)
  | 0x57 => some (.r .jgt)
  | 0x58 => some (.r .jlt)
  | 0x59 => some (.r .jle)
  | 0x5A => some (.r .jge)
  | 0x82 => some (.ri .ldi)
  | 0x83 => some (.rr .ld)
  | 0x84 => some (.rr .st)
  | 0xA0 => some (.rr .add)
  | 0xA1 => some (.rr .sub)
  | 0xA2 => some (.rr .mul)
  | 0xA3 => some (.rr .div)
  | 0xA4 => some (.rr .mod)
  | 0xA5 => some (.r .inc)
  | 0xA6 => some (.r .dec)
  | 0xA7 => some (.rr .cmp)
  | 0xA8 => some (.rr .and)
  | 0xA9 => some (.r .not)
  | 0xAA => some (.rr .or)
  | 0xAB => some (.rr .xor)
  | 0xAC => some (.rr .shl)
  | 0xAD => some (.rr .shr)
  | 0xB0 => some (.ri .addi)
  | _ => none

/-- What the decoder reads from bytes. -/
inductive Decoded where
  /-- The first instruction, and the bytes after it. -/
  | ok (i : Instr) (rest : List Byte)
  /-- The first byte is not an opcode (R87). -/
  | unsupportedInstruction (op : Byte)
  /-- A register operand byte is above 0x07 (R82). -/
  | registerIndexOutOfRange (b : Byte)
  /-- The bytes end before the instruction does. -/
  | truncated
deriving DecidableEq, Repr

/-- The operand bytes of one instruction, read and checked in order (R82, R104). -/
def decodeOperands : Handler → List Byte → Decoded
  | .f0 i, rest => .ok i rest
  | .r _, [] => .truncated
  | .r make, x :: rest =>
    match Reg.ofByte x with
    | none => .registerIndexOutOfRange x
    | some r => .ok (make r) rest
  | .rr _, [] => .truncated
  | .rr make, x :: more =>
    match Reg.ofByte x with
    | none => .registerIndexOutOfRange x
    | some a =>
      match more with
      | [] => .truncated
      | y :: rest =>
        match Reg.ofByte y with
        | none => .registerIndexOutOfRange y
        | some b => .ok (make a b) rest
  | .ri _, [] => .truncated
  | .ri make, x :: more =>
    match Reg.ofByte x with
    | none => .registerIndexOutOfRange x
    | some r =>
      match more with
      | [] => .truncated
      | i :: rest => .ok (make r i) rest

/-- The first instruction of a byte string: the opcode alone says what follows (R84). -/
def decode : List Byte → Decoded
  | [] => .truncated
  | op :: rest =>
    match opcodeHandler op with
    | none => .unsupportedInstruction op
    | some h => decodeOperands h rest

/-- The operand byte that names a register (R82). -/
def Reg.toByte (r : Reg) : Byte := BitVec.ofNat 8 r.index

/-- The bytes of an instruction, the opcode first (R81, R85). -/
def encode : Instr → List Byte
  | .nop => [0x00]
  | .hlt => [0x01]
  | .ret => [0x11]
  | .iret => [0x13]
  | .push r => [0x45, r.toByte]
  | .pop r => [0x46, r.toByte]
  | .prn r => [0x47, r.toByte]
  | .pra r => [0x48, r.toByte]
  | .call r => [0x50, r.toByte]
  | .int r => [0x52, r.toByte]
  | .jmp r => [0x54, r.toByte]
  | .jeq r => [0x55, r.toByte]
  | .jne r => [0x56, r.toByte]
  | .jgt r => [0x57, r.toByte]
  | .jlt r => [0x58, r.toByte]
  | .jle r => [0x59, r.toByte]
  | .jge r => [0x5A, r.toByte]
  | .ldi r i => [0x82, r.toByte, i]
  | .ld a b => [0x83, a.toByte, b.toByte]
  | .st a b => [0x84, a.toByte, b.toByte]
  | .add a b => [0xA0, a.toByte, b.toByte]
  | .sub a b => [0xA1, a.toByte, b.toByte]
  | .mul a b => [0xA2, a.toByte, b.toByte]
  | .div a b => [0xA3, a.toByte, b.toByte]
  | .mod a b => [0xA4, a.toByte, b.toByte]
  | .inc r => [0xA5, r.toByte]
  | .dec r => [0xA6, r.toByte]
  | .cmp a b => [0xA7, a.toByte, b.toByte]
  | .and a b => [0xA8, a.toByte, b.toByte]
  | .not r => [0xA9, r.toByte]
  | .or a b => [0xAA, a.toByte, b.toByte]
  | .xor a b => [0xAB, a.toByte, b.toByte]
  | .shl a b => [0xAC, a.toByte, b.toByte]
  | .shr a b => [0xAD, a.toByte, b.toByte]
  | .addi r i => [0xB0, r.toByte, i]

/-- The bytes of a table word, the first byte in bits 7 to 0 (spec/opcode_table.json), zeros above `nbits`,
up to the longest instruction's three bytes (R81). -/
def tableBytes (nbits w : Nat) : List Byte :=
  let v := w % 2 ^ nbits
  [BitVec.ofNat 8 v, BitVec.ofNat 8 (v / 0x100), BitVec.ofNat 8 (v / 0x10000)]

/-- The instruction the decoder reads from a table word, `none` where it rejects it. -/
def decodeTableWord (nbits w : Nat) : Option Instr :=
  match decode (tableBytes nbits w) with
  | .ok i _ => some i
  | .unsupportedInstruction _ => none
  | .registerIndexOutOfRange _ => none
  | .truncated => none

end Sys2Proof
end

