-- ==== Sys2Proof/Machine/Fetch.lean ====
section
/-! DEFINITION. Fetching an instruction's bytes and decoding them (40_dispatcher.md R102 to R106). -/

namespace Sys2Proof.Machine

/-- `FetchByte()` (R102): no wrap at the top of memory (R29). -/
def State.fetchByte (s : State) : Except Condition (Byte × State) :=
  if s.ip + 1 > 255 then .error (.addressOutOfRange (s.ip + 1))
  else .ok (s.readByte (s.ip + 1).toNat, s.setIp (s.ip + 1))

/-- `FetchReg()` (R103): the byte is checked as soon as it is fetched (R82). -/
def State.fetchReg (s : State) : Except Condition (Reg × State) := do
  let (b, t) ← s.fetchByte
  match Reg.ofByte b with
  | none => .error (.registerIndexOutOfRange b)
  | some r => .ok (r, t)

/-- The operand bytes of a handler's format, fetched and checked in order (R104). -/
def State.fetchOperands (s : State) : Handler → Except Condition (Instr × State)
  | .f0 i => .ok (i, s)
  | .r make => do
    let (r, t) ← s.fetchReg
    return (make r, t)
  | .rr make => do
    let (a, t) ← s.fetchReg
    let (b, u) ← t.fetchReg
    return (make a b, u)
  | .ri make => do
    let (r, t) ← s.fetchReg
    let (i, u) ← t.fetchByte
    return (make r i, u)

/-- The fetch and decode part of `Step()` (R104, R106): the instruction, and the state with `ip` on its last
byte. -/
def State.fetchInstr (s : State) : Except Condition (Instr × State) := do
  let (op, t) ← s.fetchByte
  match opcodeHandler op with
  | none => .error (.unsupportedInstruction op t.ip)
  | some h => t.fetchOperands h

/-- The bytes the next fetches can reach, at most the longest instruction's three, none past 0xFF (R81, R102). -/
def State.codeBytes (s : State) : List Byte :=
  ((List.range 3).filter fun k => s.ip + 1 + k ≤ 255).map fun k => s.readByte (s.ip + 1 + k).toNat

/-- Store bytes at increasing addresses from `a`; one past 0xFF has no place and is dropped (log 14). -/
def State.storeBytes (s : State) (a : Nat) : List Byte → State
  | [] => s
  | b :: rest => (if a < Config.memSize then s.writeByte a b else s).storeBytes (a + 1) rest

end Sys2Proof.Machine
end

