-- ==== Sys2Proof/Machine/Iteration.lean ====
section
/-! DEFINITION. One iteration of the run loop, and what stands for one where the run has ended
(40_dispatcher.md R100, R101, R104). -/

namespace Sys2Proof.Machine

/-- `Step()` (R104): fetch and decode one instruction, then run it. -/
def runInstr (s : State) : Host.Outcome State Fault Refusal :=
  match s.fetchInstr with
  | .error c => .next (s.raise c)
  | .ok (i, t) => exec i t

/-- `Iteration(tick, key)` (R100): poll, then either enter one interrupt or run one instruction. -/
def iteration (s : State) : Host.Outcome State Fault Refusal :=
  let p := s.poll
  if p.preempts then settle p p.interruptEntry else runInstr p

/-- After HLT no iteration runs (R101, R253, log 7). -/
def afterHalt : Host.Outcome State Fault Refusal := .fault .runHalted

/-- After a fatal condition no iteration runs; the host is told which it was (R221, log 7). -/
def afterFault (c : Condition) : Host.Outcome State Fault Refusal := .fault (.runFaulted c)

end Sys2Proof.Machine
end

