-- ==== Sys2Proof/Machine/Step.lean ====
section
/-! DEFINITION. The machine's step: one iteration while the run goes on (10_state.md R35, 40_dispatcher.md
R101), and where an instruction stands to be the next one fetched. -/

namespace Sys2Proof.Machine

/-- One step: an iteration while `run = Running`, none otherwise (R35, R101). -/
def step (s : State) : Host.Outcome State Fault Refusal :=
  match s.run with
  | .running => iteration s
  | .halted => afterHalt
  | .faulted c => afterFault c

/-- The state with a table word's instruction stored where the next fetch reads, at `ip + 1` (R27), and the
host silent at the poll before that fetch, so that no key replaces a stored byte and no line is raised in
between (log 14). -/
def State.withFetchWord (s : State) (nbits w : Nat) : State :=
  { s.storeBytes (s.ip + 1).toNat (tableBytes nbits w) with inputs := Draw.silent :: s.inputs }

end Sys2Proof.Machine
end

