-- ==== Sys2Proof/Safety.lean ====
section
/-! DEFINITION. What claims mean by a sound state and a safe run. -/

namespace Sys2Proof.Machine

/-- The invariant of the machine: memory is in its canonical form, `ip` is in its range (R27) and the loader's
next address is no further than `PROG_LIMIT` (R265). -/
structure State.Inv (s : State) : Prop where
  memWf : s.mem.wf
  ipLow : -1 ≤ s.ip
  ipHigh : s.ip ≤ 255
  loadNext : s.loadNext ≤ Config.progLimit

/-- A safe state: its run has not ended in a fatal condition (R35). -/
def State.Safe (s : State) : Prop := ∀ c, s.run ≠ .faulted c

/-- The states a run can reach from `s` (R101). -/
inductive Reaches (s : State) : State → Prop where
  | here : Reaches s s
  | next {t u : State} : Reaches s t → step t = .next u → Reaches s u

/-- A run from `s` is safe when it meets no fatal condition. -/
def SafeRun (s : State) : Prop := ∀ t, Reaches s t → t.Safe

end Sys2Proof.Machine
end

