-- ==== Sys2Proof/Certificates/Slice0/Obligations.lean ====
section
/-! DEFINITION. The statements about the machine, from the spec's numbered rules. First the predicates they
share, then the statements. -/

namespace Sys2Proof.Claims

open Sys2Proof.Machine

/-! ### What stays as it was -/

/-- Every register outside `ws` keeps its contents and its valid bit. -/
def SameRegsBut (ws : List Reg) (s t : State) : Prop :=
  ∀ q, q ∉ ws → t.reg q = s.reg q ∧ t.isSet q = s.isSet q

/-- Every byte of memory reads as before. -/
def SameBytes (s t : State) : Prop := ∀ k, t.readByte k = s.readByte k

/-- Every byte of memory outside `P` reads as before. -/
def SameBytesBut (P : Nat → Prop) (s t : State) : Prop := ∀ k, ¬ P k → t.readByte k = s.readByte k

/-- The loader's address, the named parameters and the model's own fields are as before. -/
def SameSetting (s t : State) : Prop :=
  t.loadNext = s.loadNext ∧ t.params = s.params ∧ t.inputs = s.inputs ∧ t.polls = s.polls ∧
    t.freeDraw = s.freeDraw

/-- The instruction wrote register `r` with `v` and nothing else. -/
def WritesReg (r : Reg) (v : Byte) (s t : State) : Prop :=
  t.reg r = v ∧ t.isSet r = true ∧ SameRegsBut [r] s t ∧ SameBytes s t ∧ t.ip = s.ip ∧ t.flags = s.flags ∧
    t.servicing = s.servicing ∧ t.run = s.run ∧ t.out = s.out ∧ SameSetting s t

/-- The instruction wrote the flags and nothing else. -/
def WritesFlags (f : Flags) (s t : State) : Prop :=
  t.flags = f ∧ SameRegsBut [] s t ∧ SameBytes s t ∧ t.ip = s.ip ∧ t.servicing = s.servicing ∧
    t.run = s.run ∧ t.out = s.out ∧ SameSetting s t

/-- The instruction wrote `ip` and nothing else. -/
def WritesIp (i : Int) (s t : State) : Prop :=
  t.ip = i ∧ SameRegsBut [] s t ∧ SameBytes s t ∧ t.flags = s.flags ∧ t.servicing = s.servicing ∧
    t.run = s.run ∧ t.out = s.out ∧ SameSetting s t

/-- The instruction emitted `e` and did nothing else. -/
def EmitsOnly (e : Event) (s t : State) : Prop :=
  t.out = s.out ++ [e] ∧ SameRegsBut [] s t ∧ SameBytes s t ∧ t.ip = s.ip ∧ t.flags = s.flags ∧
    t.servicing = s.servicing ∧ t.run = s.run ∧ SameSetting s t

/-- The fatal condition `c` is taken: the run ends in it and the output history is that of `s` (R221, R222). -/
def Ends (s : State) (c : Condition) (o : Host.Outcome State Fault Refusal) : Prop :=
  ∃ t, o = .next t ∧ t.run = .faulted c ∧ t.out = s.out

/-- The instruction `i` raises `c` in `s`. -/
def Raises (i : Instr) (s : State) (c : Condition) : Prop := Ends s c (exec i s)

/-! ### How an instruction is encoded and fetched -/

/-- The byte `k` places after the last fetched one. -/
def codeByte (s : State) (k : Nat) : Byte := s.readByte (s.ip + k).toNat

/-- A fetch whose opcode would be past 0xFF raises and fetches nothing (R102). -/
def FetchEndsPastFF : Prop :=
  ∀ s : State, s.ip = 255 → s.fetchInstr = .error (.addressOutOfRange 256)

/-- `op` alone is the instruction `i` (format F0, R81), and a fetch that finds it consumes one byte. -/
def EncodedF0 (op : Byte) (i : Instr) : Prop :=
  encode i = [op] ∧ FetchEndsPastFF ∧
    ∀ s : State, -1 ≤ s.ip → s.ip ≤ 254 → codeByte s 1 = op →
      s.fetchInstr = .ok (i, s.setIp (s.ip + 1))

/-- `op` and a register byte are `make r` (format R, R81): the fetch raises past 0xFF and on a register byte
above 7 (R82, R102 to R104), and otherwise consumes two bytes. -/
def EncodedR (op : Byte) (make : Reg → Instr) : Prop :=
  (∀ r, encode (make r) = [op, BitVec.ofNat 8 r.index]) ∧ FetchEndsPastFF ∧
    ∀ s : State, -1 ≤ s.ip → s.ip ≤ 254 → codeByte s 1 = op →
      (s.ip = 254 → s.fetchInstr = .error (.addressOutOfRange 256)) ∧
      (s.ip ≤ 253 → 7 < (codeByte s 2).toNat →
        s.fetchInstr = .error (.registerIndexOutOfRange (codeByte s 2))) ∧
      (∀ r : Reg, s.ip ≤ 253 → (codeByte s 2).toNat = r.index →
        s.fetchInstr = .ok (make r, s.setIp (s.ip + 2)))

/-- `op` and two register bytes are `make a b` (format RR, R81), fetched and checked in order. -/
def EncodedRR (op : Byte) (make : Reg → Reg → Instr) : Prop :=
  (∀ a b, encode (make a b) = [op, BitVec.ofNat 8 a.index, BitVec.ofNat 8 b.index]) ∧ FetchEndsPastFF ∧
    ∀ s : State, -1 ≤ s.ip → s.ip ≤ 254 → codeByte s 1 = op →
      (s.ip = 254 → s.fetchInstr = .error (.addressOutOfRange 256)) ∧
      (s.ip ≤ 253 → 7 < (codeByte s 2).toNat →
        s.fetchInstr = .error (.registerIndexOutOfRange (codeByte s 2))) ∧
      (∀ a : Reg, s.ip = 253 → (codeByte s 2).toNat = a.index →
        s.fetchInstr = .error (.addressOutOfRange 256)) ∧
      (∀ a : Reg, s.ip ≤ 252 → (codeByte s 2).toNat = a.index → 7 < (codeByte s 3).toNat →
        s.fetchInstr = .error (.registerIndexOutOfRange (codeByte s 3))) ∧
      (∀ a b : Reg, s.ip ≤ 252 → (codeByte s 2).toNat = a.index → (codeByte s 3).toNat = b.index →
        s.fetchInstr = .ok (make a b, s.setIp (s.ip + 3)))

/-- `op`, a register byte and any literal byte are `make r i` (format RI, R81, R83), fetched in order. -/
def EncodedRI (op : Byte) (make : Reg → Byte → Instr) : Prop :=
  (∀ r i, encode (make r i) = [op, BitVec.ofNat 8 r.index, i]) ∧ FetchEndsPastFF ∧
    ∀ s : State, -1 ≤ s.ip → s.ip ≤ 254 → codeByte s 1 = op →
      (s.ip = 254 → s.fetchInstr = .error (.addressOutOfRange 256)) ∧
      (s.ip ≤ 253 → 7 < (codeByte s 2).toNat →
        s.fetchInstr = .error (.registerIndexOutOfRange (codeByte s 2))) ∧
      (∀ r : Reg, s.ip = 253 → (codeByte s 2).toNat = r.index →
        s.fetchInstr = .error (.addressOutOfRange 256)) ∧
      (∀ r : Reg, s.ip ≤ 252 → (codeByte s 2).toNat = r.index →
        s.fetchInstr = .ok (make r (codeByte s 3), s.setIp (s.ip + 3)))

/-! ### The shapes of the instructions -/

/-- The two-register shape (R121): where both registers are set, register `a` gets the `v` that `value` fixes
and nothing else changes; an unset register raises, `a` before `b`. -/
def TwoRegShape (make : Reg → Reg → Instr) (value : Byte → Byte → Byte → Prop) : Prop :=
  ∀ (a b : Reg) (s : State),
    (s.isSet a = true → s.isSet b = true →
      ∃ t v, exec (make a b) s = .next t ∧ value (s.reg a) (s.reg b) v ∧ WritesReg a v s t) ∧
    (s.isSet a = false → Raises (make a b) s (.unsetRegister a)) ∧
    (s.isSet a = true → s.isSet b = false → Raises (make a b) s (.unsetRegister b))

/-- The one-register shape (R122). -/
def OneRegShape (make : Reg → Instr) (value : Byte → Byte → Prop) : Prop :=
  ∀ (r : Reg) (s : State),
    (s.isSet r = true → ∃ t v, exec (make r) s = .next t ∧ value (s.reg r) v ∧ WritesReg r v s t) ∧
    (s.isSet r = false → Raises (make r) s (.unsetRegister r))

/-- `q` and `m` are quotient and remainder of `a` by `b` under a rounding: toward minus infinity the remainder
has the divisor's sign, toward zero the dividend's, or it is zero (R11, R129). -/
def IsQuotRem (rounding : Config.Rounding) (a b q m : Int) : Prop :=
  a = b * q + m ∧ m.natAbs < b.natAbs ∧
    match rounding with
    | .floor => m = 0 ∨ m.sign = b.sign
    | .trunc => m = 0 ∨ m.sign = a.sign

/-- The shape of DIV and MOD (R128, R129): `pick` says which of quotient and remainder is written. -/
def DivisionShape (make : Reg → Reg → Instr) (pick : Int → Int → Int) : Prop :=
  ∀ (a b : Reg) (s : State),
    (s.isSet a = true → s.isSet b = true → s.reg b ≠ 0 →
      ∃ t q m, exec (make a b) s = .next t ∧
        IsQuotRem s.params.rounding (s.reg a).toInt (s.reg b).toInt q m ∧
        WritesReg a (BitVec.ofInt 8 (pick q m)) s t) ∧
    (s.isSet a = false → Raises (make a b) s (.unsetRegister a)) ∧
    (s.isSet a = true → s.isSet b = false → Raises (make a b) s (.unsetRegister b)) ∧
    (s.isSet a = true → s.isSet b = true → s.reg b = 0 → Raises (make a b) s (.divisionByZero a b))

/-- The shape of the conditional jumps (R182): not taken, nothing changes and the register is not read; taken,
`ip` becomes the target minus one and nothing else changes, or an unset register raises. -/
def JumpShape (make : Reg → Instr) (taken : Flags → Bool) : Prop :=
  ∀ (r : Reg) (s : State),
    (taken s.flags = false → exec (make r) s = .next s) ∧
    (taken s.flags = true → s.isSet r = true →
      ∃ t, exec (make r) s = .next t ∧ WritesIp ((s.reg r).toNat - 1) s t) ∧
    (taken s.flags = true → s.isSet r = false → Raises (make r) s (.unsetRegister r))

/-- The shape of PRN and PRA (R200, R202). -/
def PrintShape (make : Reg → Instr) (event : Byte → Event) : Prop :=
  ∀ (r : Reg) (s : State),
    (s.isSet r = true → ∃ t, exec (make r) s = .next t ∧ EmitsOnly (event (s.reg r)) s t) ∧
    (s.isSet r = false → Raises (make r) s (.unsetRegister r))

/-- One byte `v` was pushed and SP moved down by one (R62); everything else but `ip` is as before. -/
def PushesByte (v : Byte) (s t : State) : Prop :=
  t.readByte (s.reg .r7).toNat = v ∧ SameBytesBut (· = (s.reg .r7).toNat) s t ∧
    (t.reg .r7).toNat = (s.reg .r7).toNat - 1 ∧ SameRegsBut [.r7] s t ∧ t.flags = s.flags ∧
    t.servicing = s.servicing ∧ t.run = s.run ∧ t.out = s.out ∧ SameSetting s t

/-- SP's number, for the stack statements. -/
def sp (s : State) : Nat := (s.reg .r7).toNat

/-- The nine bytes interrupt entry pushes, from the highest address down (R233). -/
def savedBytes (s : State) (i : Nat) : List Byte :=
  [BitVec.ofInt 8 s.ip, s.flags.toByte, s.reg .r0, s.reg .r1, s.reg .r2, s.reg .r3, s.reg .r4, s.reg .r5,
    s.reg .r6 &&& ~~~(1#8 <<< i)]

/-- `i` is the line interrupt entry takes: the least that is set in both mask and status (R232, R233). -/
def TakesLine (s : State) (i : Nat) : Prop :=
  i < 8 ∧ (s.reg .r5).getLsbD i = true ∧ (s.reg .r6).getLsbD i = true ∧
    ∀ j, j < i → ¬ ((s.reg .r5).getLsbD j = true ∧ (s.reg .r6).getLsbD j = true)

/-- `p` is `s` but for the fields that hold the host's draws. -/
def SameButDraws (s p : State) : Prop :=
  SameRegsBut [] s p ∧ SameBytes s p ∧ p.ip = s.ip ∧ p.flags = s.flags ∧ p.servicing = s.servicing ∧
    p.run = s.run ∧ p.out = s.out ∧ p.loadNext = s.loadNext ∧ p.params = s.params ∧ p.freeDraw = s.freeDraw

/-- R0 to R4 are all set. -/
def AllSet (s : State) : Prop := ∀ r : Reg, s.isSet r = true

/-- Every row of the reset table but the memory's (R39), under a form of `GPR_RESET_POLICY`. -/
def ResetRows (policy : Config.GprReset) (s : State) : Prop :=
  (∀ r ∈ [Reg.r0, .r1, .r2, .r3, .r4],
    (policy = .unset → s.isSet r = false) ∧ ∀ v, policy = .value v → s.isSet r = true ∧ s.reg r = v) ∧
  s.reg .r5 = 0x00 ∧ s.reg .r6 = 0x00 ∧ s.reg .r7 = 0xFF ∧
  s.flags = ⟨false, false, false⟩ ∧ s.ip = -1 ∧ s.servicing = false ∧ s.run = .running ∧ s.out = []

/-- The 35 opcodes of the opcode map (R85). -/
def legalOpcodes : List Nat :=
  [0x00, 0x01, 0x11, 0x13, 0x45, 0x46, 0x47, 0x48, 0x50, 0x52, 0x54, 0x55, 0x56, 0x57, 0x58, 0x59, 0x5A] ++
  [0x82, 0x83, 0x84, 0xA0, 0xA1, 0xA2, 0xA3, 0xA4, 0xA5, 0xA6, 0xA7, 0xA8, 0xA9, 0xAA, 0xAB, 0xAC, 0xAD, 0xB0]

/-- The iteration from `s` runs an instruction: the run goes on, no interrupt is entered, and the fetch after
the poll reads `i` and leaves `u`. -/
def RunsInstr (s : State) (i : Instr) (u : State) : Prop :=
  s.run = .running ∧ s.poll.preempts = false ∧ s.poll.fetchInstr = .ok (i, u)

/-- The iteration from `s` enters an interrupt (R231). -/
def Enters (s : State) : Prop := s.run = .running ∧ s.poll.preempts = true

/-- Whether an instruction transfers control (R28): a conditional jump does where its condition holds of the
flags (R107, R182 to R187). -/
def transfers (f : Flags) : Instr → Bool
  | .ret | .iret | .call _ | .jmp _ => true
  | .jeq _ => f.e
  | .jne _ => !f.e
  | .jgt _ => f.g
  | .jlt _ => f.l
  | .jle _ => f.l || f.e
  | .jge _ => f.g || f.e
  | .nop | .hlt | .push _ | .pop _ | .prn _ | .pra _ | .int _ | .ldi _ _ | .ld _ _ | .st _ _ => false
  | .add _ _ | .sub _ _ | .mul _ _ | .div _ _ | .mod _ _ | .inc _ | .dec _ | .cmp _ _ | .and _ _ => false
  | .not _ | .or _ _ | .xor _ _ | .shl _ _ | .shr _ _ | .addi _ _ => false

/-- The register an instruction names as its destination (R26, R90). -/
def destination : Instr → Option Reg
  | .ldi r _ | .addi r _ | .pop r | .inc r | .dec r | .not r => some r
  | .ld a _ | .add a _ | .sub a _ | .mul a _ | .div a _ | .mod a _ => some a
  | .and a _ | .or a _ | .xor a _ | .shl a _ | .shr a _ => some a
  | .nop | .hlt | .ret | .iret | .push _ | .prn _ | .pra _ | .call _ | .int _ | .st _ _ | .cmp _ _ => none
  | .jmp _ | .jeq _ | .jne _ | .jgt _ | .jlt _ | .jle _ | .jge _ => none

/-- The instructions that push or pop (R65). -/
def usesStack : Instr → Bool
  | .push _ | .pop _ | .call _ | .ret | .iret => true
  | .nop | .hlt | .prn _ | .pra _ | .int _ | .ldi _ _ | .ld _ _ | .st _ _ | .cmp _ _ => false
  | .jmp _ | .jeq _ | .jne _ | .jgt _ | .jlt _ | .jle _ | .jge _ => false
  | .add _ _ | .sub _ _ | .mul _ _ | .div _ _ | .mod _ _ | .inc _ | .dec _ | .and _ _ => false
  | .not _ | .or _ _ | .xor _ _ | .shl _ _ | .shr _ _ | .addi _ _ => false

/-- `v` is the byte that a fetch of address `a` reads in `t`, and in every state that reaches that address later
with its byte as `t` left it. -/
def FetchedFrom (a : Nat) (v : Byte) (t : State) : Prop :=
  t.readByte a = v ∧
    ∀ u : State, u.ip + 1 = a → u.readByte a = t.readByte a → u.fetchByte = .ok (v, u.setIp a)

end Sys2Proof.Claims

open Sys2Proof Sys2Proof.Machine Sys2Proof.Claims

/-! ### Encoding and decoding -/

/-- R81, R85: decoding the bytes of any instruction gives it back, with whatever follows left over. -/
def Obligations.DecodeOfEncodeIsTheInstruction : Prop :=
  ∀ (i : Instr) (rest : List Byte), decode (encode i ++ rest) = .ok i rest

/-- R84, R89: what the decoder reads is the encoding of the instruction it answers, and the rest is untouched. -/
def Obligations.DecodedBytesAreTheEncoding : Prop :=
  ∀ (bytes : List Byte) (i : Instr) (rest : List Byte), decode bytes = .ok i rest → bytes = encode i ++ rest

/-- R81, R82, R85, R88: the decoder accepts exactly the well-formed byte strings. -/
def Obligations.DecoderAcceptsExactlyWellFormedBytes : Prop :=
  ∀ bytes : List Byte, wellFormed bytes = true ↔ ∃ i, decode bytes = .ok i []

/-- R81, R85: words written out from the formats, one of each and of each family. -/
def Obligations.WrittenOutWordsDecode : Prop :=
  decode [0b00000001] = .ok .hlt [] ∧
  decode [0b01000101, 0b00000010] = .ok (.push .r2) [] ∧
  decode [0b10000010, 0b00000001, 0b00001010] = .ok (.ldi .r1 0x0A) [] ∧
  decode [0b10100000, 0b00000000, 0b00000001] = .ok (.add .r0 .r1) [] ∧
  decode [0b10101001, 0b00000111] = .ok (.not .r7) [] ∧
  decode [0b01010110, 0b00000100] = .ok (.jne .r4) [] ∧
  decode [0b01010010, 0b00000000] = .ok (.int .r0) [] ∧
  decode [0b10110000, 0b00000101, 0b11111111] = .ok (.addi .r5 0xFF) []

/-- R87, R106: in an iteration that runs an instruction, a byte that is not an opcode raises
`UnsupportedInstruction` with the byte and its address, whatever follows it. -/
def Obligations.IllegalOpcodeRaisesUnsupportedInstruction : Prop :=
  ∀ s : State, s.run = .running → s.poll.preempts = false → -1 ≤ s.ip → s.ip ≤ 254 →
    (codeByte s.poll 1).toNat ∉ legalOpcodes →
    Ends s (.unsupportedInstruction (codeByte s.poll 1) (s.ip + 1)) (step s)

/-- R102, R103: `FetchByte()` raises past 0xFF and otherwise consumes the byte after the last fetched one;
`FetchReg()` checks the whole byte it fetched. -/
def Obligations.FetchConsumesOneByteAndNeverWraps : Prop :=
  ∀ s : State,
    (s.ip + 1 > 255 → s.fetchByte = .error (.addressOutOfRange (s.ip + 1)) ∧
      s.fetchReg = .error (.addressOutOfRange (s.ip + 1))) ∧
    (s.ip + 1 ≤ 255 → s.fetchByte = .ok (codeByte s 1, s.setIp (s.ip + 1))) ∧
    (s.ip + 1 ≤ 255 → 7 < (codeByte s 1).toNat →
      s.fetchReg = .error (.registerIndexOutOfRange (codeByte s 1))) ∧
    (∀ r : Reg, s.ip + 1 ≤ 255 → (codeByte s 1).toNat = r.index →
      s.fetchReg = .ok (r, s.setIp (s.ip + 1)))

/-- R102 to R104, R106: fetching byte by byte answers what the decoder reads from the bytes after `ip`, and
where they end at 0xFF, `AddressOutOfRange`. -/
def Obligations.FetchAgreesWithDecoder : Prop :=
  ∀ s : State, -1 ≤ s.ip → s.ip ≤ 255 →
    s.fetchInstr =
      match decode s.codeBytes with
      | .ok i _ => .ok (i, s.setIp (s.ip + i.length))
      | .unsupportedInstruction op => .error (.unsupportedInstruction op (s.ip + 1))
      | .registerIndexOutOfRange b => .error (.registerIndexOutOfRange b)
      | .truncated => .error (.addressOutOfRange 256)

/-! ### The run loop -/

/-- R100, R231: an iteration polls, then enters an interrupt when a line is pending and enabled and none is
in service, and otherwise runs one instruction. -/
def Obligations.IterationEntersOrRunsNeverBoth : Prop :=
  ∀ s : State, s.run = .running →
    ((s.poll.reg .r5 &&& s.poll.reg .r6) ≠ 0 → s.servicing = false →
      step s = settle s.poll s.poll.interruptEntry) ∧
    ((s.poll.reg .r5 &&& s.poll.reg .r6) = 0 ∨ s.servicing = true → step s = runInstr s.poll)

/-- R100, R104: where the bytes after `ip` decode to an instruction and no interrupt is entered, the step is
that instruction's meaning with `ip` on its last byte. -/
def Obligations.StepRunsTheDecodedInstruction : Prop :=
  ∀ (s : State) (i : Instr) (rest : List Byte), s.run = .running → -1 ≤ s.ip → s.ip ≤ 255 →
    s.poll.preempts = false → decode s.poll.codeBytes = .ok i rest →
    step s = exec i (s.poll.setIp (s.ip + i.length))

/-- R35, R101, R253; the answer is the model's choice (log 7): a stopped machine runs no iteration. -/
def Obligations.StoppedMachineTakesNoStep : Prop :=
  ∀ s : State,
    (s.run = .halted → step s = .fault .runHalted) ∧
    (∀ c, s.run = .faulted c → step s = .fault (.runFaulted c)) ∧
    (∀ t, step s = .next t → s.run = .running)

/-- R100, R221: while the run goes on every iteration has a next state; no byte of memory stops the model. -/
def Obligations.RunningMachineAlwaysSteps : Prop :=
  ∀ s : State, s.run = .running → ∃ t, step s = .next t

/-! ### Fatal conditions -/

/-- R221, R222: a fatal condition ends the run, keeps the output history, and no iteration follows it. -/
def Obligations.FatalConditionEndsTheRun : Prop :=
  ∀ (s : State) (c : Condition),
    (s.raise c).run = .faulted c ∧ (s.raise c).out = s.out ∧ ∀ t, step (s.raise c) ≠ .next t

/-- R220: the nine codes. -/
def Obligations.ConditionCodesAreOneToNine : Prop :=
  (∀ c : Condition, 1 ≤ c.code ∧ c.code ≤ 9) ∧
  (∀ op ip, (Condition.unsupportedInstruction op ip).code = 1) ∧
  (∀ v, (Condition.stackOverflow v).code = 2) ∧
  (∀ v, (Condition.stackUnderflow v).code = 3) ∧
  (∀ a, (Condition.memoryFull a).code = 4) ∧
  (∀ a, (Condition.addressOutOfRange a).code = 5) ∧
  (∀ a b, (Condition.divisionByZero a b).code = 6) ∧
  (∀ b, (Condition.registerIndexOutOfRange b).code = 7) ∧
  (∀ r, (Condition.unsetRegister r).code = 8) ∧
  (∀ n, (Condition.invalidInterruptLine n).code = 9)

/-! ### The dispatcher's instructions -/

/-- R110: NOP changes nothing. -/
def Obligations.NopChangesNothing : Prop :=
  EncodedF0 0x00 .nop ∧ ∀ s : State, exec .nop s = .next s

/-- R111: HLT ends the run normally and changes nothing else; nothing follows it. -/
def Obligations.HltStopsTheRun : Prop :=
  EncodedF0 0x01 .hlt ∧
    ∀ s : State, ∃ t, exec .hlt s = .next t ∧ t.run = .halted ∧ SameRegsBut [] s t ∧ SameBytes s t ∧
      t.ip = s.ip ∧ t.flags = s.flags ∧ t.servicing = s.servicing ∧ t.out = s.out ∧ SameSetting s t ∧
      ∀ u, step t ≠ .next u

/-! ### Arithmetic, logic and compare -/

/-- R125 to R127: ADD, SUB and MUL leave the result modulo 256 in register `a`. -/
def Obligations.AddSubMulWriteTheResultModulo256 : Prop :=
  (EncodedRR 0xA0 .add ∧ TwoRegShape .add fun va vb v => v.toNat = (va.toNat + vb.toNat) % 256) ∧
  (EncodedRR 0xA1 .sub ∧ TwoRegShape .sub fun va vb v => (v.toNat : Int) = ((va.toNat : Int) - vb.toNat) % 256) ∧
  (EncodedRR 0xA2 .mul ∧ TwoRegShape .mul fun va vb v =>
    (v.toNat : Int) = (va.toInt * vb.toInt) % 256 ∧ v.toNat = (va.toNat * vb.toNat) % 256)

/-- R128, R129: DIV and MOD divide as signed numbers under either rounding, and raise on a zero divisor. -/
def Obligations.DivModFollowTheRounding : Prop :=
  (EncodedRR 0xA3 .div ∧ DivisionShape .div fun q _ => q) ∧
  (EncodedRR 0xA4 .mod ∧ DivisionShape .mod fun _ m => m)

/-- R131, R132, R142: INC, DEC and NOT. -/
def Obligations.IncDecNotWriteTheirRegister : Prop :=
  (EncodedR 0xA5 .inc ∧ OneRegShape .inc fun v w => w.toNat = (v.toNat + 1) % 256) ∧
  (EncodedR 0xA6 .dec ∧ OneRegShape .dec fun v w => (w.toNat : Int) = ((v.toNat : Int) - 1) % 256) ∧
  (EncodedR 0xA9 .not ∧ OneRegShape .not fun v w => ∀ k, k < 8 → w.getLsbD k = !v.getLsbD k)

/-- R124, R140: CMP sets E, L and G from the signed comparison, exactly one of them, and writes nothing else. -/
def Obligations.CmpSetsTheFlagsFromTheSignedComparison : Prop :=
  EncodedRR 0xA7 .cmp ∧
    ∀ (a b : Reg) (s : State),
      (s.isSet a = true → s.isSet b = true → ∃ t f, exec (.cmp a b) s = .next t ∧ WritesFlags f s t ∧
        (f.e = true ↔ (s.reg a).toInt = (s.reg b).toInt) ∧
        (f.l = true ↔ (s.reg a).toInt < (s.reg b).toInt) ∧
        (f.g = true ↔ (s.reg a).toInt > (s.reg b).toInt) ∧
        f.e.toNat + f.l.toNat + f.g.toNat = 1) ∧
      (s.isSet a = false → Raises (.cmp a b) s (.unsetRegister a)) ∧
      (s.isSet a = true → s.isSet b = false → Raises (.cmp a b) s (.unsetRegister b))

/-- R141, R143, R144: AND, OR and XOR work bit by bit. -/
def Obligations.AndOrXorWorkBitByBit : Prop :=
  (EncodedRR 0xA8 .and ∧ TwoRegShape .and fun va vb v => ∀ k, v.getLsbD k = (va.getLsbD k && vb.getLsbD k)) ∧
  (EncodedRR 0xAA .or ∧ TwoRegShape .or fun va vb v => ∀ k, v.getLsbD k = (va.getLsbD k || vb.getLsbD k)) ∧
  (EncodedRR 0xAB .xor ∧ TwoRegShape .xor fun va vb v => ∀ k, v.getLsbD k = (va.getLsbD k ^^ vb.getLsbD k))

/-- R145, R146: SHL shifts zeros in, SHR copies of bit 7; the count is the whole unsigned byte. -/
def Obligations.ShiftsReadTheWholeCount : Prop :=
  (EncodedRR 0xAC .shl ∧ TwoRegShape .shl fun va vb v => v.toNat = (va.toNat * 2 ^ vb.toNat) % 256) ∧
  (EncodedRR 0xAD .shr ∧ TwoRegShape .shr fun va vb v => v.toInt = va.toInt / 2 ^ vb.toNat)

/-- R123, R150: ADDI adds its literal modulo 256. -/
def Obligations.AddiAddsItsLiteralModulo256 : Prop :=
  EncodedRI 0xB0 .addi ∧
    ∀ (r : Reg) (i : Byte) (s : State),
      (s.isSet r = true → ∃ t v, exec (.addi r i) s = .next t ∧
        v.toNat = ((s.reg r).toNat + i.toNat) % 256 ∧ WritesReg r v s t) ∧
      (s.isSet r = false → Raises (.addi r i) s (.unsetRegister r))

/-! ### Data movement and stack -/

/-- R161: LDI stores its literal unchanged and marks the register set; no register is read. -/
def Obligations.LdiStoresItsLiteral : Prop :=
  EncodedRI 0x82 .ldi ∧
    ∀ (r : Reg) (i : Byte) (s : State), ∃ t, exec (.ldi r i) s = .next t ∧ WritesReg r i s t

/-- R162: LD loads register `a` from the address in register `b`; `a` need not be set. -/
def Obligations.LdLoadsFromTheAddressInB : Prop :=
  EncodedRR 0x83 .ld ∧
    ∀ (a b : Reg) (s : State),
      (s.isSet b = true → ∃ t, exec (.ld a b) s = .next t ∧
        WritesReg a (s.readByte (s.reg b).toNat) s t) ∧
      (s.isSet b = false → Raises (.ld a b) s (.unsetRegister b))

/-- R163: ST stores register `b` at the address in register `a` and changes nothing else. -/
def Obligations.StStoresAtTheAddressInA : Prop :=
  EncodedRR 0x84 .st ∧
    ∀ (a b : Reg) (s : State),
      (s.mem.wf → s.isSet a = true → s.isSet b = true → ∃ t, exec (.st a b) s = .next t ∧
        t.readByte (addr (s.reg a)) = s.reg b ∧ SameBytesBut (· = addr (s.reg a)) s t ∧
        SameRegsBut [] s t ∧ t.ip = s.ip ∧ t.flags = s.flags ∧ t.servicing = s.servicing ∧
        t.run = s.run ∧ t.out = s.out ∧ SameSetting s t) ∧
      (s.isSet a = false → Raises (.st a b) s (.unsetRegister a)) ∧
      (s.isSet a = true → s.isSet b = false → Raises (.st a b) s (.unsetRegister b))

/-- R62, R63: `Push(v)` writes at SP and decrements it, or raises before it writes; `Pop()` increments SP and
reads there, and raises at the empty value or below the region. -/
def Obligations.PushAndPopMoveSpAndCheckItsBounds : Prop :=
  ∀ s : State,
    (∀ v : Byte,
      (sp s ≤ 0xE0 → s.push v = .error (.stackOverflow (s.reg .r7))) ∧
      (s.mem.wf → 0xE0 < sp s →
        ∃ t, s.push v = .ok t ∧ PushesByte v s t ∧ t.ip = s.ip ∧ 0xE0 ≤ sp t ∧ sp t ≤ 0xFE)) ∧
    (sp s = 0xFF → s.pop = .error (.stackUnderflow (s.reg .r7))) ∧
    (sp s < 0xE0 → s.pop = .error (.stackOverflow (s.reg .r7))) ∧
    (0xE0 ≤ sp s → sp s < 0xFF → ∃ t, s.pop = .ok (s.readByte (sp s + 1), t) ∧
      WritesReg .r7 (BitVec.ofNat 8 (sp s + 1)) s t)

/-- R164: PUSH pushes the register as it was before SP changes. -/
def Obligations.PushInstructionPushesItsRegister : Prop :=
  EncodedR 0x45 .push ∧
    ∀ (r : Reg) (s : State),
      (s.mem.wf → s.isSet r = true → 0xE0 < sp s →
        ∃ t, exec (.push r) s = .next t ∧ PushesByte (s.reg r) s t ∧ t.ip = s.ip) ∧
      (s.isSet r = false → Raises (.push r) s (.unsetRegister r)) ∧
      (s.isSet r = true → sp s ≤ 0xE0 → Raises (.push r) s (.stackOverflow (s.reg .r7)))

/-- R165: POP writes its register after SP has changed, so `POP R7` leaves the popped byte in R7. -/
def Obligations.PopInstructionWritesItsRegisterLast : Prop :=
  EncodedR 0x46 .pop ∧
    ∀ (r : Reg) (s : State),
      (0xE0 ≤ sp s → sp s < 0xFF → ∃ t, exec (.pop r) s = .next t ∧
        t.reg r = s.readByte (sp s + 1) ∧ t.isSet r = true ∧ (r ≠ .r7 → sp t = sp s + 1) ∧
        SameRegsBut [r, .r7] s t ∧ SameBytes s t ∧ t.ip = s.ip ∧ t.flags = s.flags ∧
        t.servicing = s.servicing ∧ t.run = s.run ∧ t.out = s.out ∧ SameSetting s t) ∧
      (sp s = 0xFF → Raises (.pop r) s (.stackUnderflow (s.reg .r7))) ∧
      (sp s < 0xE0 → Raises (.pop r) s (.stackOverflow (s.reg .r7)))

/-- R165, the source's law: PUSH then POP of the same register restores it and SP, R7 included. -/
def Obligations.PushThenPopRestores : Prop :=
  ∀ (r : Reg) (s : State), s.mem.wf → s.isSet r = true → 0xE0 < sp s →
    ∃ t u, exec (.push r) s = .next t ∧ exec (.pop r) t = .next u ∧
      (∀ q, u.reg q = s.reg q ∧ u.isSet q = s.isSet q) ∧ u.ip = s.ip ∧ u.flags = s.flags ∧
      SameBytesBut (· = sp s) s u

/-! ### Control transfer -/

/-- R180, R181: JMP continues at the address in its register. -/
def Obligations.JmpContinuesAtItsRegister : Prop :=
  EncodedR 0x54 .jmp ∧
    ∀ (r : Reg) (s : State),
      (s.isSet r = true → ∃ t, exec (.jmp r) s = .next t ∧ WritesIp ((s.reg r).toNat - 1) s t) ∧
      (s.isSet r = false → Raises (.jmp r) s (.unsetRegister r))

/-- R182 to R187: the six conditional jumps and their conditions. -/
def Obligations.ConditionalJumpsFollowTheirFlags : Prop :=
  (EncodedR 0x55 .jeq ∧ JumpShape .jeq fun f => f.e) ∧
  (EncodedR 0x56 .jne ∧ JumpShape .jne fun f => !f.e) ∧
  (EncodedR 0x57 .jgt ∧ JumpShape .jgt fun f => f.g) ∧
  (EncodedR 0x58 .jlt ∧ JumpShape .jlt fun f => f.l) ∧
  (EncodedR 0x59 .jle ∧ JumpShape .jle fun f => f.l || f.e) ∧
  (EncodedR 0x5A .jge ∧ JumpShape .jge fun f => f.g || f.e)

/-- R188: CALL reads its target, pushes the link of the run's `CALL_LINK`, and jumps; an overflow makes no
jump. -/
def Obligations.CallPushesItsLinkAndJumps : Prop :=
  EncodedR 0x50 .call ∧
    ∀ (r : Reg) (s : State),
      (s.mem.wf → s.isSet r = true → 0xE0 < sp s → ∃ t, exec (.call r) s = .next t ∧
        PushesByte (match s.params.callLink with
          | .lastByte => BitVec.ofInt 8 s.ip
          | .nextInstr => BitVec.ofInt 8 (s.ip + 1)) s t ∧
        t.ip = (s.reg r).toNat - 1) ∧
      (s.isSet r = false → Raises (.call r) s (.unsetRegister r)) ∧
      (s.isSet r = true → sp s ≤ 0xE0 → Raises (.call r) s (.stackOverflow (s.reg .r7)))

/-- R189: RET pops the link and continues where the run's `CALL_LINK` says. -/
def Obligations.RetContinuesAtThePoppedLink : Prop :=
  EncodedF0 0x11 .ret ∧
    ∀ s : State,
      (0xE0 ≤ sp s → sp s < 0xFF → ∃ t, exec .ret s = .next t ∧
        t.ip = (match s.params.callLink with
          | .lastByte => ((s.readByte (sp s + 1)).toNat : Int)
          | .nextInstr => ((s.readByte (sp s + 1)).toNat : Int) - 1) ∧
        sp t = sp s + 1 ∧ SameRegsBut [.r7] s t ∧ SameBytes s t ∧ t.flags = s.flags ∧
        t.servicing = s.servicing ∧ t.run = s.run ∧ t.out = s.out ∧ SameSetting s t) ∧
      (sp s = 0xFF → Raises .ret s (.stackUnderflow (s.reg .r7))) ∧
      (sp s < 0xE0 → Raises .ret s (.stackOverflow (s.reg .r7)))

/-- R190: a RET that finds SP and the link as CALL left them continues after the CALL, under either
`CALL_LINK`. The last address has no instruction after it. -/
def Obligations.CallThenRetReturnsAfterTheCall : Prop :=
  ∀ (r : Reg) (s t u : State), s.mem.wf → 0 ≤ s.ip → s.ip ≤ 254 → s.isSet r = true → 0xE0 < sp s →
    exec (.call r) s = .next t → sp u = sp t → u.readByte (sp s) = t.readByte (sp s) → u.params = s.params →
    ∃ v, exec .ret u = .next v ∧ v.ip = s.ip ∧ sp v = sp s

/-! ### Output and the interrupt instructions -/

/-- R200, R202: PRN and PRA append their event and do nothing else. -/
def Obligations.PrnPraAppendTheirEvent : Prop :=
  (EncodedR 0x47 .prn ∧ PrintShape .prn .num) ∧ (EncodedR 0x48 .pra ∧ PrintShape .pra .chr)

/-- R201: the text of a number is its signed decimal numeral, with no leading zeros. -/
def Obligations.NumTextIsTheSignedDecimal : Prop :=
  ∀ v : Byte, ∃ digits : List Nat,
    digits ≠ [] ∧ (∀ d ∈ digits, d < 10) ∧ (digits.head? = some 0 → digits = [0]) ∧
    digits.foldl (fun n d => 10 * n + d) 0 = v.toInt.natAbs ∧
    (Event.num v).text = (if v.toInt < 0 then ['-'] else []) ++ digits.map fun d => Char.ofNat (48 + d)

/-- R204: INT sets the status bit of a line 0 to 7 and enters nothing; a line above 7 raises. -/
def Obligations.IntSetsItsStatusBit : Prop :=
  EncodedR 0x52 .int ∧
    ∀ (r : Reg) (s : State),
      (s.isSet r = true → (s.reg r).toNat ≤ 7 → ∃ t v, exec (.int r) s = .next t ∧
        (∀ k, k < 8 → v.getLsbD k = ((s.reg .r6).getLsbD k || decide (k = (s.reg r).toNat))) ∧
        WritesReg .r6 v s t) ∧
      (s.isSet r = false → Raises (.int r) s (.unsetRegister r)) ∧
      (s.isSet r = true → 7 < (s.reg r).toNat →
        Raises (.int r) s (.invalidInterruptLine (s.reg r).toNat))

/-- R206, R207: IRET pops R6 down to R0, the flags and `ip`, and clears `servicing`, whether or not a handler
runs; it raises where nine bytes are not there. -/
def Obligations.IretRestoresTheSavedContext : Prop :=
  EncodedF0 0x13 .iret ∧
    ∀ s : State,
      (0xE0 ≤ sp s → sp s ≤ 0xF6 → ∃ t, exec .iret s = .next t ∧
        t.reg .r6 = s.readByte (sp s + 1) ∧ t.reg .r5 = s.readByte (sp s + 2) ∧
        t.reg .r4 = s.readByte (sp s + 3) ∧ t.reg .r3 = s.readByte (sp s + 4) ∧
        t.reg .r2 = s.readByte (sp s + 5) ∧ t.reg .r1 = s.readByte (sp s + 6) ∧
        t.reg .r0 = s.readByte (sp s + 7) ∧ AllSet t ∧
        t.flags.e = (s.readByte (sp s + 8)).getLsbD 0 ∧ t.flags.g = (s.readByte (sp s + 8)).getLsbD 1 ∧
        t.flags.l = (s.readByte (sp s + 8)).getLsbD 2 ∧
        t.ip = (s.readByte (sp s + 9)).toNat ∧ sp t = sp s + 9 ∧ t.servicing = false ∧
        SameBytes s t ∧ t.run = s.run ∧ t.out = s.out ∧ SameSetting s t) ∧
      (0xF6 < sp s → Raises .iret s (.stackUnderflow 0xFF)) ∧
      (sp s < 0xE0 → Raises .iret s (.stackOverflow (s.reg .r7)))

/-! ### The interrupt controller -/

/-- R241: the timer raises line 0 only while vector entry 0 is not zero. -/
def Obligations.TimerRaisesLineZeroWhileConfigured : Prop :=
  ∀ s : State,
    (s.readByte 0xD8 ≠ 0 → WritesReg .r6 (s.reg .r6 ||| 0x01) s (s.pollTimer true)) ∧
    (s.readByte 0xD8 = 0 → s.pollTimer true = s) ∧ s.pollTimer false = s

/-- R242: a key goes to the keyboard cell and raises line 1; no key changes nothing; the poll is the timer's
and then this one, on the tick and key the host draws. Where a draw stands in State is not stated here. -/
def Obligations.KeyIsStoredAndRaisesLineOne : Prop :=
  ∀ s : State,
    (∀ k : Byte, s.mem.wf →
      (s.pollKey (some k)).readByte 0xD7 = k ∧ SameBytesBut (· = 0xD7) s (s.pollKey (some k)) ∧
      (s.pollKey (some k)).reg .r6 = s.reg .r6 ||| 0x02 ∧ SameRegsBut [.r6] s (s.pollKey (some k)) ∧
      (s.pollKey (some k)).ip = s.ip ∧ (s.pollKey (some k)).flags = s.flags ∧
      (s.pollKey (some k)).servicing = s.servicing ∧ (s.pollKey (some k)).run = s.run ∧
      (s.pollKey (some k)).out = s.out ∧ SameSetting s (s.pollKey (some k))) ∧
    s.pollKey none = s ∧
    ∃ p, SameButDraws s p ∧ s.poll = (p.pollTimer s.nextDraw.tick).pollKey s.nextDraw.key

/-- R37, R100, R240, R281 in the form of the model's own choice (log 4): a poll uses up one draw. A draw fixed
beforehand is taken first; where none is, the draw is the free one of this poll's number, of which nothing is
known, so a tick or a key may come at any poll. Neither tick nor key changes nothing else. -/
def Obligations.PollUsesUpItsDraw : Prop :=
  ∀ s : State, s.poll.inputs = s.inputs.tail ∧ s.poll.polls = s.polls + 1 ∧
    (∀ d rest, s.inputs = d :: rest → s.nextDraw = d) ∧
    (s.inputs = [] → s.nextDraw.tick = Config.hostTick s.polls ∧ s.nextDraw.key = Config.hostKey s.polls) ∧
    (s.nextDraw.tick = false → s.nextDraw.key = none → SameButDraws s s.poll)

/-- R232: the line taken is the lowest-numbered one that is set in both mask and status, and there is one
exactly when the two share a bit. -/
def Obligations.LowestPendingEnabledLineIsTaken : Prop :=
  ∀ (mask status : Byte),
    (∀ i, lowestLine mask status = some i ↔
      i < 8 ∧ mask.getLsbD i = true ∧ status.getLsbD i = true ∧
        ∀ j, j < i → ¬ (mask.getLsbD j = true ∧ status.getLsbD j = true)) ∧
    (lowestLine mask status = none ↔ mask &&& status = 0)

/-- R232, R233, R235: entry takes the least line set in both mask and status, pushes the nine saved bytes
downwards from SP with the status bit already clear, and continues at the vector table's entry with `servicing`
set. It raises at the first of its pushes that fails, an unset register before the bound of the push it would
have fed; `room` is how many pushes fit. -/
def Obligations.InterruptEntrySavesTheContextAndVectors : Prop :=
  ∀ (s : State) (i : Nat), TakesLine s i →
    let room := sp s - 0xE0
    (s.mem.wf → AllSet s → 9 ≤ room →
      ∃ t, settle s s.interruptEntry = .next t ∧
        (∀ k, k < 9 → (savedBytes s i)[k]? = some (t.readByte (sp s - k))) ∧
        SameBytesBut (fun k => sp s - 9 < k ∧ k ≤ sp s) s t ∧
        sp t = sp s - 9 ∧ t.reg .r6 = s.reg .r6 &&& ~~~(1#8 <<< i) ∧ SameRegsBut [.r6, .r7] s t ∧
        t.ip = (s.readByte (0xD8 + i)).toNat - 1 ∧ t.servicing = true ∧ t.flags = s.flags ∧
        t.run = s.run ∧ t.out = s.out ∧ SameSetting s t) ∧
    (∀ r : Reg, s.isSet r = false → (∀ q : Reg, q.index < r.index → s.isSet q = true) →
      r.index + 2 ≤ room → Ends s (.unsetRegister r) (settle s s.interruptEntry)) ∧
    (room < 9 → (∀ r : Reg, r.index + 2 ≤ room → s.isSet r = true) →
      Ends s (.stackOverflow (if sp s < 0xE0 then s.reg .r7 else 0xE0)) (settle s s.interruptEntry))

/-- R236, the source's law: after entry and whatever handler leaves SP and the nine saved bytes as entry
left them, IRET gives back R0 to R5, SP, the flags and `ip`, and R6 with only the taken
bit cleared. That it holds under this premise on the handler is the spec's own inference (R236). An entry from
`ip = -1` is left out: its saved byte is 0xFF (R206). -/
def Obligations.InterruptRoundTripRestoresTheContext : Prop :=
  ∀ (s t u : State) (i : Nat), s.Inv → 0 ≤ s.ip → AllSet s → 0xE9 ≤ sp s →
    TakesLine s i → settle s s.interruptEntry = .next t →
    sp u = sp t → (∀ k, sp t < k → k ≤ sp s → u.readByte k = t.readByte k) →
    ∃ v, exec .iret u = .next v ∧ (∀ r : Reg, r ≠ .r6 → v.reg r = s.reg r) ∧
      v.reg .r6 = s.reg .r6 &&& ~~~(1#8 <<< i) ∧ v.flags = s.flags ∧ v.ip = s.ip ∧ v.servicing = false

/-- R33: E is bit 0, G bit 1 and L bit 2 of the flag byte, bits 7 to 3 are pushed as 0 and ignored when
popped. -/
def Obligations.FlagByteLayout : Prop :=
  (∀ f : Flags, f.toByte.getLsbD 0 = f.e ∧ f.toByte.getLsbD 1 = f.g ∧ f.toByte.getLsbD 2 = f.l ∧
    ∀ k, 3 ≤ k → f.toByte.getLsbD k = false) ∧
  (∀ b : Byte, (Flags.ofByte b).e = b.getLsbD 0 ∧ (Flags.ofByte b).g = b.getLsbD 1 ∧
    (Flags.ofByte b).l = b.getLsbD 2) ∧
  (∀ f : Flags, Flags.ofByte f.toByte = f)

/-! ### Reset and the loader -/

/-- R39: reset leaves the values of the table, with every byte 0x00 before the load, and the loaded image with
every other byte 0x00 after it; `State.reset` is that state under the defaults of R7. -/
def Obligations.ResetLeavesTheStatedValues : Prop :=
  ∀ (policy : Config.GprReset) (params : Config.Params),
    ResetRows policy (State.resetUnder policy params) ∧
    (∀ k, (State.resetUnder policy params).readByte k = 0x00) ∧
    (∀ program : List Byte, program.length ≤ 214 →
      ResetRows policy ((State.resetUnder policy params).loadProgram program) ∧
      ∀ k, ((State.resetUnder policy params).loadProgram program).readByte k =
        ((program ++ [0x01])[k]?).getD 0x00) ∧
    State.reset = State.resetUnder .unset ⟨.floor, .lastByte⟩

/-- R264, R265: `ramLoad` appends from 0x00 on at the next free address, and at 0xD7 raises `MemoryFull`, after
which the run never starts. -/
def Obligations.RamLoadAppendsOrRaisesMemoryFull : Prop :=
  (∀ policy params, (State.resetUnder policy params).loadNext = 0x00) ∧
  ∀ (s : State) (b : Byte), s.run = .running →
    (s.mem.wf → s.loadNext < 0xD7 →
      (s.ramLoad b).readByte s.loadNext = b ∧ SameBytesBut (· = s.loadNext) s (s.ramLoad b) ∧
      (s.ramLoad b).loadNext = s.loadNext + 1 ∧ SameRegsBut [] s (s.ramLoad b) ∧ (s.ramLoad b).ip = s.ip ∧
      (s.ramLoad b).flags = s.flags ∧ (s.ramLoad b).servicing = s.servicing ∧
      (s.ramLoad b).run = s.run ∧ (s.ramLoad b).out = s.out ∧ (s.ramLoad b).params = s.params ∧
      (s.ramLoad b).inputs = s.inputs ∧ (s.ramLoad b).polls = s.polls ∧ (s.ramLoad b).freeDraw = s.freeDraw) ∧
    (0xD7 ≤ s.loadNext →
      (s.ramLoad b).run = .faulted (.memoryFull s.loadNext) ∧ (s.ramLoad b).out = s.out ∧
        ∀ t, step (s.ramLoad b) ≠ .next t)

/-- R266: a program of at most 214 bytes loads and the run can start at its first byte; a longer one raises
`MemoryFull` at 0xD7 and the run never starts. -/
def Obligations.AtMost214ProgramBytesLoad : Prop :=
  ∀ (program : List Byte) (policy : Config.GprReset) (params : Config.Params),
    let s := (State.resetUnder policy params).loadProgram program
    (program.length ≤ 214 → s.run = .running ∧ s.ip = -1 ∧ s.loadNext = program.length + 1 ∧
      s.fetchByte = .ok ((program ++ [0x01]).headD 0x00, s.setIp 0)) ∧
    (214 < program.length → s.run = .faulted (.memoryFull 0xD7) ∧ ∀ t, step s ≠ .next t)

/-- R262: after reset and the load of a program, whatever the host draws: the first poll can make line 1
pending, by a key, and no other line; no line is deliverable, so the first iteration enters none and fetches
at 0x00; SP, the flags and `servicing` are as reset leaves them. -/
def Obligations.FirstIterationAfterResetRunsTheProgram : Prop :=
  ∀ (program : List Byte) (policy : Config.GprReset) (params : Config.Params) (draws : List Draw) (n : Nat),
    program.length ≤ 214 →
    let s : State := { (State.resetUnder policy params).loadProgram program with inputs := draws, polls := n }
    (s.nextDraw.key = none → s.poll.reg .r6 = 0x00) ∧ (s.nextDraw.key ≠ none → s.poll.reg .r6 = 0x02) ∧
    s.poll.reg .r5 = 0x00 ∧ s.poll.preempts = false ∧ step s = runInstr s.poll ∧
    s.poll.fetchByte = .ok ((program ++ [0x01]).headD 0x00, s.poll.setIp 0) ∧
    sp s.poll = 0xFF ∧ s.poll.flags = ⟨false, false, false⟩ ∧ s.poll.servicing = false

/-! ### Whole-machine rules -/

/-- The invariant holds right after reset, under every parameter. -/
def Obligations.ResetMeetsTheInvariant : Prop :=
  ∀ (policy : Config.GprReset) (params : Config.Params), (State.resetUnder policy params).Inv

/-- Every step keeps the invariant: memory stays canonical (R50), `ip` stays in -1 to 255 (R27) and the
loader's address stays at most `PROG_LIMIT`; the free values of a faulted state too. -/
def Obligations.StepKeepsTheInvariant : Prop :=
  ∀ s t : State, s.Inv → step s = .next t → t.Inv

/-- R31, R32: a step that does not end in a fatal condition changes the flags only by CMP and IRET. -/
def Obligations.OnlyCmpAndIretWriteTheFlags : Prop :=
  ∀ s t : State, step s = .next t → t.Safe → t.flags ≠ s.flags →
    ∃ i u, RunsInstr s i u ∧ (i = .iret ∨ ∃ a b, i = .cmp a b)

/-- R34, R234, R237: `servicing` is set only by interrupt entry and cleared only by IRET. -/
def Obligations.OnlyEntryAndIretWriteServicing : Prop :=
  ∀ s t : State, step s = .next t → t.Safe → t.servicing ≠ s.servicing →
    (Enters s ∧ t.servicing = true) ∨ (∃ u, RunsInstr s .iret u ∧ t.servicing = false)

/-- R36, R222, R245: an iteration adds at most one event to the output history, and only PRN and PRA add one. -/
def Obligations.OutputOnlyGrowsByPrnAndPra : Prop :=
  ∀ s t : State, step s = .next t →
    t.out = s.out ∨ ∃ i u r, RunsInstr s i u ∧
      ((i = .prn r ∧ t.out = s.out ++ [.num (u.reg r)]) ∨ (i = .pra r ∧ t.out = s.out ++ [.chr (u.reg r)]))

/-- R111, R15: a run ends normally only in an iteration that runs HLT. -/
def Obligations.OnlyHltHaltsTheRun : Prop :=
  ∀ s t : State, step s = .next t → t.run = .halted → ∃ u, RunsInstr s .hlt u

/-- R24: no step clears a valid bit unless it ends in a fatal condition. That the named parameters and the
loader's address stand in State, and that every step keeps them, one that ends in a fatal condition included, is
the model's own choice (logs 3, 9 and 18); the spec says that they are fixed for a run (R7) and that only the
loader, before the run, appends (R264). -/
def Obligations.ValidBitsAreNeverCleared : Prop :=
  ∀ s t : State, step s = .next t →
    (t.Safe → ∀ r, s.isSet r = true → t.isSet r = true) ∧ t.params = s.params ∧ t.loadNext = s.loadNext

/-- R28, R107: an instruction that transfers no control, a conditional jump that is not taken among them, moves
`ip` by exactly its length. -/
def Obligations.IpAdvancesByTheInstructionLength : Prop :=
  ∀ (s t u : State) (i : Instr), RunsInstr s i u → transfers u.flags i = false → step s = .next t → t.Safe →
    t.ip = s.ip + i.length

/-- R56, R62, R163, R242: a step that does not end in a fatal condition changes only the keyboard cell when a
key came, the nine cells below and at SP on interrupt entry, the byte ST names, and the cell at SP on PUSH and
CALL. -/
def Obligations.MemoryChangesOnlyWhereAStoreGoes : Prop :=
  ∀ (s t : State) (k : Nat), s.Inv → step s = .next t → t.Safe → t.readByte k ≠ s.readByte k →
    (k = 0xD7 ∧ s.nextDraw.key ≠ none) ∨
    (Enters s ∧ sp s - 9 < k ∧ k ≤ sp s) ∨
    (∃ i u, RunsInstr s i u ∧
      ((∃ a b, i = .st a b ∧ k = addr (u.reg a)) ∨
        ((∃ r, i = .push r ∨ i = .call r) ∧ k = sp u)))

/-- R26: a step that does not end in a fatal condition changes a register only by an instruction that names it
as its destination or by IRET; R6 also by INT, by the poll and by interrupt entry; R7 also by the instructions
that push or pop and by interrupt entry. -/
def Obligations.RegistersChangeOnlyByTheirWriters : Prop :=
  ∀ (s t : State) (r : Reg), step s = .next t → t.Safe → t.reg r ≠ s.reg r →
    (∃ i u, RunsInstr s i u ∧
      (destination i = some r ∨ i = .iret ∨ (r = .r6 ∧ ∃ q, i = .int q) ∨ (r = .r7 ∧ usesStack i = true))) ∨
    (r = .r6 ∧ (s.nextDraw.tick = true ∨ s.nextDraw.key ≠ none)) ∨
    (Enters s ∧ (r = .r6 ∨ r = .r7))

/-- R271: a byte written by ST, by a push or by the key store is the one the next fetch of its address reads,
with no delay or fence: from whatever later state reaches that address with the byte as the store left it, the
very next one included. -/
def Obligations.StoredByteIsFetchedNext : Prop :=
  ∀ s : State, s.Inv →
    (∀ a b : Reg, s.isSet a = true → s.isSet b = true →
      ∃ t, exec (.st a b) s = .next t ∧ FetchedFrom (s.reg a).toNat (s.reg b) t) ∧
    (∀ v : Byte, 0xE0 < sp s → ∃ t, s.push v = .ok t ∧ FetchedFrom (sp s) v t) ∧
    (∀ k : Byte, FetchedFrom 0xD7 k (s.pollKey (some k)))
end

