-- ==== Sys2Proof/Laws/Decode.lean ====
section
/-! SUPPORT. The small laws of the decoder's parts (30_encoding.md R82, R85, R104). -/

namespace Sys2Proof

theorem Reg.ofByte_toByte (r : Reg) : Reg.ofByte r.toByte = some r := by cases r <;> rfl

/-- A register byte is the one byte that names its register (R82). -/
theorem Reg.ofByte_eq_some {b : Byte} {r : Reg} : Reg.ofByte b = some r ↔ b = r.toByte := by
  revert b; cases r <;> decide

theorem Reg.ofByte_eq_some_index {b : Byte} {r : Reg} : Reg.ofByte b = some r ↔ b.toNat = r.index := by
  revert b; cases r <;> decide

theorem Reg.ofByte_eq_none {b : Byte} : Reg.ofByte b = none ↔ 7 < b.toNat := by
  revert b; decide

theorem isRegisterByte_toByte (r : Reg) : isRegisterByte r.toByte = true := by cases r <;> rfl

theorem isRegisterByte_iff {b : Byte} : isRegisterByte b = true ↔ ∃ r : Reg, b = r.toByte := by
  constructor
  · intro h
    cases hr : Reg.ofByte b with
    | none => rw [Reg.ofByte_eq_none] at hr; simp [isRegisterByte] at h; omega
    | some r => exact ⟨r, Reg.ofByte_eq_some.mp hr⟩
  · rintro ⟨r, rfl⟩; exact isRegisterByte_toByte r

/-- The format a handler fetches (R81). -/
def Handler.format : Handler → Format
  | .f0 _ => .f0
  | .r _ => .r
  | .rr _ => .rr
  | .ri _ => .ri

/-- The decoder's table and the format table list the same opcodes with the same formats (R85, R87). -/
theorem opcodeFormat_eq (op : Byte) : opcodeFormat op = (opcodeHandler op).map Handler.format := by
  revert op; decide

/-- What the operands were, where the decoder answers an instruction (R104). -/
theorem decodeOperands_cases {h : Handler} {bytes rest : List Byte} {i : Instr}
    (e : decodeOperands h bytes = .ok i rest) :
    (h = .f0 i ∧ bytes = rest) ∨
    (∃ make r, h = .r make ∧ i = make r ∧ bytes = r.toByte :: rest) ∨
    (∃ make a b, h = .rr make ∧ i = make a b ∧ bytes = a.toByte :: b.toByte :: rest) ∨
    (∃ make r x, h = .ri make ∧ i = make r x ∧ bytes = r.toByte :: x :: rest) := by
  unfold decodeOperands at e
  split at e <;> (try split at e) <;> (try split at e) <;> (try split at e) <;>
    simp only [Decoded.ok.injEq, reduceCtorEq] at e <;> obtain ⟨rfl, rfl⟩ := e
  · exact .inl ⟨rfl, rfl⟩
  · rename_i hr
    exact .inr (.inl ⟨_, _, rfl, rfl, by rw [Reg.ofByte_eq_some.mp hr]⟩)
  · rename_i ha _ _ _ _ _ hb
    exact .inr (.inr (.inl ⟨_, _, _, rfl, rfl, by rw [Reg.ofByte_eq_some.mp ha, Reg.ofByte_eq_some.mp hb]⟩))
  · rename_i hr _ _ _
    exact .inr (.inr (.inr ⟨_, _, _, rfl, rfl, by rw [Reg.ofByte_eq_some.mp hr]⟩))

end Sys2Proof
end

