-- ==== Sys2Proof/Laws/State.lean ====
section
/-! SUPPORT. One lemma per field per update of the state, each true by unfolding the update, so that no proof
unfolds a record. -/

namespace Sys2Proof.Machine

variable (s : State)

/-! ### setting a register (R24) -/

@[simp] theorem State.setReg_regs (r : Reg) (v : Byte) : (s.setReg r v).regs = s.regs.set r v := rfl
@[simp] theorem State.setReg_flags (r : Reg) (v : Byte) : (s.setReg r v).flags = s.flags := rfl
@[simp] theorem State.setReg_ip (r : Reg) (v : Byte) : (s.setReg r v).ip = s.ip := rfl
@[simp] theorem State.setReg_servicing (r : Reg) (v : Byte) : (s.setReg r v).servicing = s.servicing := rfl
@[simp] theorem State.setReg_run (r : Reg) (v : Byte) : (s.setReg r v).run = s.run := rfl
@[simp] theorem State.setReg_out (r : Reg) (v : Byte) : (s.setReg r v).out = s.out := rfl
@[simp] theorem State.setReg_mem (r : Reg) (v : Byte) : (s.setReg r v).mem = s.mem := rfl
@[simp] theorem State.setReg_loadNext (r : Reg) (v : Byte) : (s.setReg r v).loadNext = s.loadNext := rfl
@[simp] theorem State.setReg_params (r : Reg) (v : Byte) : (s.setReg r v).params = s.params := rfl
@[simp] theorem State.setReg_inputs (r : Reg) (v : Byte) : (s.setReg r v).inputs = s.inputs := rfl
@[simp] theorem State.setReg_polls (r : Reg) (v : Byte) : (s.setReg r v).polls = s.polls := rfl
@[simp] theorem State.setReg_freeDraw (r : Reg) (v : Byte) : (s.setReg r v).freeDraw = s.freeDraw := rfl
@[simp] theorem State.setReg_readByte (r : Reg) (v : Byte) (k : Nat) : (s.setReg r v).readByte k = s.readByte k := rfl

/-! ### writing `ip` (R27) -/

@[simp] theorem State.setIp_regs (i : Int) : (s.setIp i).regs = s.regs := rfl
@[simp] theorem State.setIp_flags (i : Int) : (s.setIp i).flags = s.flags := rfl
@[simp] theorem State.setIp_ip (i : Int) : (s.setIp i).ip = i := rfl
@[simp] theorem State.setIp_servicing (i : Int) : (s.setIp i).servicing = s.servicing := rfl
@[simp] theorem State.setIp_run (i : Int) : (s.setIp i).run = s.run := rfl
@[simp] theorem State.setIp_out (i : Int) : (s.setIp i).out = s.out := rfl
@[simp] theorem State.setIp_mem (i : Int) : (s.setIp i).mem = s.mem := rfl
@[simp] theorem State.setIp_loadNext (i : Int) : (s.setIp i).loadNext = s.loadNext := rfl
@[simp] theorem State.setIp_params (i : Int) : (s.setIp i).params = s.params := rfl
@[simp] theorem State.setIp_inputs (i : Int) : (s.setIp i).inputs = s.inputs := rfl
@[simp] theorem State.setIp_polls (i : Int) : (s.setIp i).polls = s.polls := rfl
@[simp] theorem State.setIp_freeDraw (i : Int) : (s.setIp i).freeDraw = s.freeDraw := rfl
@[simp] theorem State.setIp_reg (i : Int) (q : Reg) : (s.setIp i).reg q = s.reg q := rfl
@[simp] theorem State.setIp_isSet (i : Int) (q : Reg) : (s.setIp i).isSet q = s.isSet q := rfl
@[simp] theorem State.setIp_readByte (i : Int) (k : Nat) : (s.setIp i).readByte k = s.readByte k := rfl

/-! ### a control transfer (R28) -/

@[simp] theorem State.jumpTo_regs (t : Nat) : (s.jumpTo t).regs = s.regs := rfl
@[simp] theorem State.jumpTo_flags (t : Nat) : (s.jumpTo t).flags = s.flags := rfl
@[simp] theorem State.jumpTo_ip (t : Nat) : (s.jumpTo t).ip = (t : Int) - 1 := rfl
@[simp] theorem State.jumpTo_servicing (t : Nat) : (s.jumpTo t).servicing = s.servicing := rfl
@[simp] theorem State.jumpTo_run (t : Nat) : (s.jumpTo t).run = s.run := rfl
@[simp] theorem State.jumpTo_out (t : Nat) : (s.jumpTo t).out = s.out := rfl
@[simp] theorem State.jumpTo_mem (t : Nat) : (s.jumpTo t).mem = s.mem := rfl
@[simp] theorem State.jumpTo_loadNext (t : Nat) : (s.jumpTo t).loadNext = s.loadNext := rfl
@[simp] theorem State.jumpTo_params (t : Nat) : (s.jumpTo t).params = s.params := rfl
@[simp] theorem State.jumpTo_inputs (t : Nat) : (s.jumpTo t).inputs = s.inputs := rfl
@[simp] theorem State.jumpTo_polls (t : Nat) : (s.jumpTo t).polls = s.polls := rfl
@[simp] theorem State.jumpTo_freeDraw (t : Nat) : (s.jumpTo t).freeDraw = s.freeDraw := rfl
@[simp] theorem State.jumpTo_reg (t : Nat) (q : Reg) : (s.jumpTo t).reg q = s.reg q := rfl
@[simp] theorem State.jumpTo_isSet (t : Nat) (q : Reg) : (s.jumpTo t).isSet q = s.isSet q := rfl
@[simp] theorem State.jumpTo_readByte (t : Nat) (k : Nat) : (s.jumpTo t).readByte k = s.readByte k := rfl

/-! ### writing the flags (R31) -/

@[simp] theorem State.setFlags_regs (f : Flags) : (s.setFlags f).regs = s.regs := rfl
@[simp] theorem State.setFlags_flags (f : Flags) : (s.setFlags f).flags = f := rfl
@[simp] theorem State.setFlags_ip (f : Flags) : (s.setFlags f).ip = s.ip := rfl
@[simp] theorem State.setFlags_servicing (f : Flags) : (s.setFlags f).servicing = s.servicing := rfl
@[simp] theorem State.setFlags_run (f : Flags) : (s.setFlags f).run = s.run := rfl
@[simp] theorem State.setFlags_out (f : Flags) : (s.setFlags f).out = s.out := rfl
@[simp] theorem State.setFlags_mem (f : Flags) : (s.setFlags f).mem = s.mem := rfl
@[simp] theorem State.setFlags_loadNext (f : Flags) : (s.setFlags f).loadNext = s.loadNext := rfl
@[simp] theorem State.setFlags_params (f : Flags) : (s.setFlags f).params = s.params := rfl
@[simp] theorem State.setFlags_inputs (f : Flags) : (s.setFlags f).inputs = s.inputs := rfl
@[simp] theorem State.setFlags_polls (f : Flags) : (s.setFlags f).polls = s.polls := rfl
@[simp] theorem State.setFlags_freeDraw (f : Flags) : (s.setFlags f).freeDraw = s.freeDraw := rfl
@[simp] theorem State.setFlags_reg (f : Flags) (q : Reg) : (s.setFlags f).reg q = s.reg q := rfl
@[simp] theorem State.setFlags_isSet (f : Flags) (q : Reg) : (s.setFlags f).isSet q = s.isSet q := rfl
@[simp] theorem State.setFlags_readByte (f : Flags) (k : Nat) : (s.setFlags f).readByte k = s.readByte k := rfl

/-! ### writing `servicing` (R34) -/

@[simp] theorem State.setServicing_regs (b : Bool) : (s.setServicing b).regs = s.regs := rfl
@[simp] theorem State.setServicing_flags (b : Bool) : (s.setServicing b).flags = s.flags := rfl
@[simp] theorem State.setServicing_ip (b : Bool) : (s.setServicing b).ip = s.ip := rfl
@[simp] theorem State.setServicing_servicing (b : Bool) : (s.setServicing b).servicing = b := rfl
@[simp] theorem State.setServicing_run (b : Bool) : (s.setServicing b).run = s.run := rfl
@[simp] theorem State.setServicing_out (b : Bool) : (s.setServicing b).out = s.out := rfl
@[simp] theorem State.setServicing_mem (b : Bool) : (s.setServicing b).mem = s.mem := rfl
@[simp] theorem State.setServicing_loadNext (b : Bool) : (s.setServicing b).loadNext = s.loadNext := rfl
@[simp] theorem State.setServicing_params (b : Bool) : (s.setServicing b).params = s.params := rfl
@[simp] theorem State.setServicing_inputs (b : Bool) : (s.setServicing b).inputs = s.inputs := rfl
@[simp] theorem State.setServicing_polls (b : Bool) : (s.setServicing b).polls = s.polls := rfl
@[simp] theorem State.setServicing_freeDraw (b : Bool) : (s.setServicing b).freeDraw = s.freeDraw := rfl
@[simp] theorem State.setServicing_reg (b : Bool) (q : Reg) : (s.setServicing b).reg q = s.reg q := rfl
@[simp] theorem State.setServicing_isSet (b : Bool) (q : Reg) : (s.setServicing b).isSet q = s.isSet q := rfl
@[simp] theorem State.setServicing_readByte (b : Bool) (k : Nat) : (s.setServicing b).readByte k = s.readByte k := rfl

/-! ### writing the run state (R35) -/

@[simp] theorem State.setRun_regs (r : RunState) : (s.setRun r).regs = s.regs := rfl
@[simp] theorem State.setRun_flags (r : RunState) : (s.setRun r).flags = s.flags := rfl
@[simp] theorem State.setRun_ip (r : RunState) : (s.setRun r).ip = s.ip := rfl
@[simp] theorem State.setRun_servicing (r : RunState) : (s.setRun r).servicing = s.servicing := rfl
@[simp] theorem State.setRun_run (r : RunState) : (s.setRun r).run = r := rfl
@[simp] theorem State.setRun_out (r : RunState) : (s.setRun r).out = s.out := rfl
@[simp] theorem State.setRun_mem (r : RunState) : (s.setRun r).mem = s.mem := rfl
@[simp] theorem State.setRun_loadNext (r : RunState) : (s.setRun r).loadNext = s.loadNext := rfl
@[simp] theorem State.setRun_params (r : RunState) : (s.setRun r).params = s.params := rfl
@[simp] theorem State.setRun_inputs (r : RunState) : (s.setRun r).inputs = s.inputs := rfl
@[simp] theorem State.setRun_polls (r : RunState) : (s.setRun r).polls = s.polls := rfl
@[simp] theorem State.setRun_freeDraw (r : RunState) : (s.setRun r).freeDraw = s.freeDraw := rfl
@[simp] theorem State.setRun_reg (r : RunState) (q : Reg) : (s.setRun r).reg q = s.reg q := rfl
@[simp] theorem State.setRun_isSet (r : RunState) (q : Reg) : (s.setRun r).isSet q = s.isSet q := rfl
@[simp] theorem State.setRun_readByte (r : RunState) (k : Nat) : (s.setRun r).readByte k = s.readByte k := rfl

/-! ### an output event (R36) -/

@[simp] theorem State.emit_regs (e : Event) : (s.emit e).regs = s.regs := rfl
@[simp] theorem State.emit_flags (e : Event) : (s.emit e).flags = s.flags := rfl
@[simp] theorem State.emit_ip (e : Event) : (s.emit e).ip = s.ip := rfl
@[simp] theorem State.emit_servicing (e : Event) : (s.emit e).servicing = s.servicing := rfl
@[simp] theorem State.emit_run (e : Event) : (s.emit e).run = s.run := rfl
@[simp] theorem State.emit_out (e : Event) : (s.emit e).out = s.out ++ [e] := rfl
@[simp] theorem State.emit_mem (e : Event) : (s.emit e).mem = s.mem := rfl
@[simp] theorem State.emit_loadNext (e : Event) : (s.emit e).loadNext = s.loadNext := rfl
@[simp] theorem State.emit_params (e : Event) : (s.emit e).params = s.params := rfl
@[simp] theorem State.emit_inputs (e : Event) : (s.emit e).inputs = s.inputs := rfl
@[simp] theorem State.emit_polls (e : Event) : (s.emit e).polls = s.polls := rfl
@[simp] theorem State.emit_freeDraw (e : Event) : (s.emit e).freeDraw = s.freeDraw := rfl
@[simp] theorem State.emit_reg (e : Event) (q : Reg) : (s.emit e).reg q = s.reg q := rfl
@[simp] theorem State.emit_isSet (e : Event) (q : Reg) : (s.emit e).isSet q = s.isSet q := rfl
@[simp] theorem State.emit_readByte (e : Event) (k : Nat) : (s.emit e).readByte k = s.readByte k := rfl

/-! ### a memory write (R53) -/

@[simp] theorem State.writeByte_regs (a : Nat) (v : Byte) : (s.writeByte a v).regs = s.regs := rfl
@[simp] theorem State.writeByte_flags (a : Nat) (v : Byte) : (s.writeByte a v).flags = s.flags := rfl
@[simp] theorem State.writeByte_ip (a : Nat) (v : Byte) : (s.writeByte a v).ip = s.ip := rfl
@[simp] theorem State.writeByte_servicing (a : Nat) (v : Byte) : (s.writeByte a v).servicing = s.servicing := rfl
@[simp] theorem State.writeByte_run (a : Nat) (v : Byte) : (s.writeByte a v).run = s.run := rfl
@[simp] theorem State.writeByte_out (a : Nat) (v : Byte) : (s.writeByte a v).out = s.out := rfl
@[simp] theorem State.writeByte_mem (a : Nat) (v : Byte) : (s.writeByte a v).mem = s.mem.write a v := rfl
@[simp] theorem State.writeByte_loadNext (a : Nat) (v : Byte) : (s.writeByte a v).loadNext = s.loadNext := rfl
@[simp] theorem State.writeByte_params (a : Nat) (v : Byte) : (s.writeByte a v).params = s.params := rfl
@[simp] theorem State.writeByte_inputs (a : Nat) (v : Byte) : (s.writeByte a v).inputs = s.inputs := rfl
@[simp] theorem State.writeByte_polls (a : Nat) (v : Byte) : (s.writeByte a v).polls = s.polls := rfl
@[simp] theorem State.writeByte_freeDraw (a : Nat) (v : Byte) : (s.writeByte a v).freeDraw = s.freeDraw := rfl
@[simp] theorem State.writeByte_reg (a : Nat) (v : Byte) (q : Reg) : (s.writeByte a v).reg q = s.reg q := rfl
@[simp] theorem State.writeByte_isSet (a : Nat) (v : Byte) (q : Reg) : (s.writeByte a v).isSet q = s.isSet q := rfl

/-! ### what a fatal condition leaves as it was, and the run state it writes (R221, R222) -/

@[simp] theorem State.raise_run (c : Condition) : (s.raise c).run = .faulted c := rfl
@[simp] theorem State.raise_out (c : Condition) : (s.raise c).out = s.out := rfl
@[simp] theorem State.raise_loadNext (c : Condition) : (s.raise c).loadNext = s.loadNext := rfl
@[simp] theorem State.raise_params (c : Condition) : (s.raise c).params = s.params := rfl
@[simp] theorem State.raise_inputs (c : Condition) : (s.raise c).inputs = s.inputs := rfl
@[simp] theorem State.raise_polls (c : Condition) : (s.raise c).polls = s.polls := rfl
@[simp] theorem State.raise_freeDraw (c : Condition) : (s.raise c).freeDraw = s.freeDraw + 1 := rfl

/-! ### raising a line writes R6 alone (R230) -/

@[simp] theorem State.raiseLine_flags (line : Nat) : (s.raiseLine line).flags = s.flags := rfl
@[simp] theorem State.raiseLine_ip (line : Nat) : (s.raiseLine line).ip = s.ip := rfl
@[simp] theorem State.raiseLine_servicing (line : Nat) : (s.raiseLine line).servicing = s.servicing := rfl
@[simp] theorem State.raiseLine_run (line : Nat) : (s.raiseLine line).run = s.run := rfl
@[simp] theorem State.raiseLine_out (line : Nat) : (s.raiseLine line).out = s.out := rfl
@[simp] theorem State.raiseLine_mem (line : Nat) : (s.raiseLine line).mem = s.mem := rfl
@[simp] theorem State.raiseLine_loadNext (line : Nat) : (s.raiseLine line).loadNext = s.loadNext := rfl
@[simp] theorem State.raiseLine_params (line : Nat) : (s.raiseLine line).params = s.params := rfl
@[simp] theorem State.raiseLine_inputs (line : Nat) : (s.raiseLine line).inputs = s.inputs := rfl
@[simp] theorem State.raiseLine_polls (line : Nat) : (s.raiseLine line).polls = s.polls := rfl
@[simp] theorem State.raiseLine_freeDraw (line : Nat) : (s.raiseLine line).freeDraw = s.freeDraw := rfl
@[simp] theorem State.raiseLine_readByte (line k : Nat) : (s.raiseLine line).readByte k = s.readByte k := rfl

/-! ### using up the host's draw (R240) -/

@[simp] theorem State.useDraw_regs : s.useDraw.regs = s.regs := rfl
@[simp] theorem State.useDraw_flags : s.useDraw.flags = s.flags := rfl
@[simp] theorem State.useDraw_ip : s.useDraw.ip = s.ip := rfl
@[simp] theorem State.useDraw_servicing : s.useDraw.servicing = s.servicing := rfl
@[simp] theorem State.useDraw_run : s.useDraw.run = s.run := rfl
@[simp] theorem State.useDraw_out : s.useDraw.out = s.out := rfl
@[simp] theorem State.useDraw_mem : s.useDraw.mem = s.mem := rfl
@[simp] theorem State.useDraw_loadNext : s.useDraw.loadNext = s.loadNext := rfl
@[simp] theorem State.useDraw_params : s.useDraw.params = s.params := rfl
@[simp] theorem State.useDraw_inputs : s.useDraw.inputs = s.inputs.tail := rfl
@[simp] theorem State.useDraw_polls : s.useDraw.polls = s.polls + 1 := rfl
@[simp] theorem State.useDraw_freeDraw : s.useDraw.freeDraw = s.freeDraw := rfl
@[simp] theorem State.useDraw_reg (q : Reg) : s.useDraw.reg q = s.reg q := rfl
@[simp] theorem State.useDraw_isSet (q : Reg) : s.useDraw.isSet q = s.isSet q := rfl
@[simp] theorem State.useDraw_readByte (k : Nat) : s.useDraw.readByte k = s.readByte k := rfl

end Sys2Proof.Machine
end

