-- ==== Sys2Proof/Laws/Registers.lean ====
section
/-! SUPPORT. Reading a register after writing one (R11, R20, R24), and the cases of a register read. -/

namespace Sys2Proof.Machine

theorem RegFile.get_set (f : RegFile) (r q : Reg) (v : Byte) :
    (f.set r v).get q = if q = r then v else f.get q := by
  cases r <;> cases q <;> rfl

theorem RegFile.isSet_set (f : RegFile) (r q : Reg) (v : Byte) :
    (f.set r v).isSet q = if q = r then true else f.isSet q := by
  cases r <;> cases q <;> rfl

theorem State.reg_setReg (s : State) (r q : Reg) (v : Byte) :
    (s.setReg r v).reg q = if q = r then v else s.reg q :=
  RegFile.get_set s.regs r q v

theorem State.isSet_setReg (s : State) (r q : Reg) (v : Byte) :
    (s.setReg r v).isSet q = if q = r then true else s.isSet q :=
  RegFile.isSet_set s.regs r q v

@[simp] theorem State.reg_setReg_same (s : State) (r : Reg) (v : Byte) : (s.setReg r v).reg r = v := by
  simp [State.reg_setReg]

@[simp] theorem State.isSet_setReg_same (s : State) (r : Reg) (v : Byte) :
    (s.setReg r v).isSet r = true := by
  simp [State.isSet_setReg]

@[simp] theorem State.reg_setReg_other (s : State) {r q : Reg} (v : Byte) (h : q ≠ r) :
    (s.setReg r v).reg q = s.reg q := by
  simp [State.reg_setReg, h]

@[simp] theorem State.isSet_setReg_other (s : State) {r q : Reg} (v : Byte) (h : q ≠ r) :
    (s.setReg r v).isSet q = s.isSet q := by
  simp [State.isSet_setReg, h]

/-- R5, R6 and R7 always have valid contents (R24). -/
@[simp] theorem State.isSet_r5 (s : State) : s.isSet .r5 = true := rfl
@[simp] theorem State.isSet_r6 (s : State) : s.isSet .r6 = true := rfl
@[simp] theorem State.isSet_r7 (s : State) : s.isSet .r7 = true := rfl

@[simp] theorem State.readReg_of_isSet {s : State} {r : Reg} (h : s.isSet r = true) :
    s.readReg r = .ok (s.reg r) := by
  simp [State.readReg, h]

@[simp] theorem State.readReg_of_unset {s : State} {r : Reg} (h : s.isSet r = false) :
    s.readReg r = .error (.unsetRegister r) := by
  simp [State.readReg, h]

theorem State.readReg_ok_iff {s : State} {r : Reg} {v : Byte} :
    s.readReg r = .ok v ↔ s.isSet r = true ∧ v = s.reg r := by
  cases h : s.isSet r <;> simp [State.readReg, h, eq_comm (a := v)]

theorem State.readReg_error_iff {s : State} {r : Reg} {c : Condition} :
    s.readReg r = .error c ↔ s.isSet r = false ∧ c = .unsetRegister r := by
  cases h : s.isSet r <;> simp [State.readReg, h, eq_comm (a := c)]

/-- Two states with the same register file read every register alike. -/
theorem State.readReg_congr {s t : State} (h : t.regs = s.regs) (r : Reg) : t.readReg r = s.readReg r := by
  unfold State.readReg State.isSet State.reg
  rw [h]

end Sys2Proof.Machine
end

