-- ==== Sys2Proof/Laws/Fetch.lean ====
section
/-! SUPPORT. What a fetch can do (40_dispatcher.md R102 to R104), each said once. -/

namespace Sys2Proof.Machine

variable {s : State}

theorem State.fetchByte_ok (h : s.ip ≤ 254) :
    s.fetchByte = .ok (s.readByte (s.ip + 1).toNat, s.setIp (s.ip + 1)) := by
  unfold State.fetchByte
  rw [if_neg (by omega)]

theorem State.fetchByte_end (h : s.ip = 255) : s.fetchByte = .error (.addressOutOfRange 256) := by
  unfold State.fetchByte
  rw [if_pos (by omega), h]
  rfl

theorem State.fetchReg_end (h : s.ip = 255) : s.fetchReg = .error (.addressOutOfRange 256) := by
  simp [State.fetchReg, State.fetchByte_end h, bind, Except.bind]

theorem State.fetchReg_ok {r : Reg} (h : s.ip ≤ 254) (hr : (s.readByte (s.ip + 1).toNat).toNat = r.index) :
    s.fetchReg = .ok (r, s.setIp (s.ip + 1)) := by
  simp [State.fetchReg, State.fetchByte_ok h, Reg.ofByte_eq_some_index.mpr hr, bind, Except.bind]

theorem State.fetchReg_bad (h : s.ip ≤ 254) (hb : 7 < (s.readByte (s.ip + 1).toNat).toNat) :
    s.fetchReg = .error (.registerIndexOutOfRange (s.readByte (s.ip + 1).toNat)) := by
  simp [State.fetchReg, State.fetchByte_ok h, Reg.ofByte_eq_none.mpr hb, bind, Except.bind]

/-- A byte was fetched: `ip` moved by one and nothing else changed (R102). -/
theorem State.fetchByte_cases {t : State} {b : Byte} (h : s.fetchByte = .ok (b, t)) :
    s.ip ≤ 254 ∧ b = s.readByte (s.ip + 1).toNat ∧ t = s.setIp (s.ip + 1) := by
  unfold State.fetchByte at h
  split at h
  · cases h
  · obtain ⟨rfl, rfl⟩ := Prod.mk.inj (Except.ok.inj h)
    exact ⟨by omega, rfl, rfl⟩

/-- A register was fetched: `ip` moved by one and nothing else changed (R103). -/
theorem State.fetchReg_cases {t : State} {r : Reg} (h : s.fetchReg = .ok (r, t)) :
    s.ip ≤ 254 ∧ s.readByte (s.ip + 1).toNat = r.toByte ∧ t = s.setIp (s.ip + 1) := by
  simp only [State.fetchReg, bind, Except.bind] at h
  split at h
  · cases h
  · rename_i p hp
    obtain ⟨hi, hb, ht⟩ := State.fetchByte_cases (b := p.1) (t := p.2) hp
    split at h
    · cases h
    · rename_i q hq
      obtain ⟨rfl, rfl⟩ := Prod.mk.inj (Except.ok.inj h)
      exact ⟨hi, hb ▸ Reg.ofByte_eq_some.mp hq, ht⟩

@[simp] theorem State.setIp_setIp (i j : Int) : (s.setIp i).setIp j = s.setIp j := rfl

/-- Past 0xFF the fetch of an instruction raises at its opcode (R102, R104). -/
theorem State.fetchInstr_end (h : s.ip = 255) : s.fetchInstr = .error (.addressOutOfRange 256) := by
  simp [State.fetchInstr, State.fetchByte_end h, bind, Except.bind]

/-- With a legal opcode the fetch of an instruction goes on to its operands (R104, R105). -/
theorem State.fetchInstr_legal {h : Handler} (hi : s.ip ≤ 254)
    (hh : opcodeHandler (s.readByte (s.ip + 1).toNat) = some h) :
    s.fetchInstr = (s.setIp (s.ip + 1)).fetchOperands h := by
  simp [State.fetchInstr, State.fetchByte_ok hi, bind, Except.bind, hh]

/-- With an illegal opcode it raises `UnsupportedInstruction` (R106). -/
theorem State.fetchInstr_illegal (hi : s.ip ≤ 254) (hh : opcodeHandler (s.readByte (s.ip + 1).toNat) = none) :
    s.fetchInstr = .error (.unsupportedInstruction (s.readByte (s.ip + 1).toNat) (s.ip + 1)) := by
  simp [State.fetchInstr, State.fetchByte_ok hi, bind, Except.bind, hh]

/-- How many operand bytes a handler's format has (R81). -/
def handlerOperands : Handler → Nat
  | .f0 _ => 0
  | .r _ => 1
  | .rr _ => 2
  | .ri _ => 2

/-- The instructions a handler makes. -/
def handlerMakes (h : Handler) (i : Instr) : Prop :=
  match h with
  | .f0 j => i = j
  | .r make => ∃ r, i = make r
  | .rr make => ∃ a b, i = make a b
  | .ri make => ∃ r x, i = make r x

/-- An instruction of the table is one byte longer than its operands (R81, R85). -/
theorem opcodeHandler_length {op : Byte} {h : Handler} {i : Instr} (e : opcodeHandler op = some h)
    (m : handlerMakes h i) : i.length = handlerOperands h + 1 := by
  unfold opcodeHandler at e
  split at e <;> cases e
  all_goals simp only [handlerMakes] at m
  all_goals first | (subst m; rfl) | (obtain ⟨_, rfl⟩ := m; rfl) | (obtain ⟨_, _, rfl⟩ := m; rfl)

/-- The operands were fetched: `ip` moved by their number and nothing else changed (R104). -/
theorem State.fetchOperands_cases {h : Handler} {t : State} {i : Instr}
    (e : s.fetchOperands h = .ok (i, t)) :
    handlerMakes h i ∧ t = s.setIp (s.ip + handlerOperands h) ∧ (0 < handlerOperands h → t.ip ≤ 255) := by
  cases h with
  | f0 j =>
    obtain ⟨rfl, rfl⟩ := Prod.mk.inj (Except.ok.inj e)
    exact ⟨rfl, by simp [State.setIp, handlerOperands], fun h => absurd h (by simp [handlerOperands])⟩
  | r make =>
    simp only [State.fetchOperands, bind, Except.bind] at e
    split at e
    · cases e
    · rename_i p hp
      obtain ⟨hi, -, ht⟩ := State.fetchReg_cases (r := p.1) (t := p.2) hp
      obtain ⟨rfl, rfl⟩ := Prod.mk.inj (Except.ok.inj e)
      exact ⟨⟨_, rfl⟩, ht, fun _ => by rw [ht]; simp; omega⟩
  | rr make =>
    simp only [State.fetchOperands, bind, Except.bind] at e
    split at e
    · cases e
    · rename_i p hp
      obtain ⟨hi, -, ht⟩ := State.fetchReg_cases (r := p.1) (t := p.2) hp
      split at e
      · cases e
      · rename_i q hq
        obtain ⟨hi', -, hu⟩ := State.fetchReg_cases (r := q.1) (t := q.2) hq
        obtain ⟨rfl, rfl⟩ := Prod.mk.inj (Except.ok.inj e)
        rw [ht] at hi' hu
        simp only [State.setIp_ip, State.setIp_setIp] at hi' hu
        exact ⟨⟨_, _, rfl⟩, by rw [hu]; congr 1; simp only [handlerOperands]; omega,
          fun _ => by rw [hu]; simp; omega⟩
  | ri make =>
    simp only [State.fetchOperands, bind, Except.bind] at e
    split at e
    · cases e
    · rename_i p hp
      obtain ⟨hi, -, ht⟩ := State.fetchReg_cases (r := p.1) (t := p.2) hp
      split at e
      · cases e
      · rename_i q hq
        obtain ⟨hi', -, hu⟩ := State.fetchByte_cases (b := q.1) (t := q.2) hq
        obtain ⟨rfl, rfl⟩ := Prod.mk.inj (Except.ok.inj e)
        rw [ht] at hi' hu
        simp only [State.setIp_ip, State.setIp_setIp] at hi' hu
        exact ⟨⟨_, _, rfl⟩, by rw [hu]; congr 1; simp only [handlerOperands]; omega,
          fun _ => by rw [hu]; simp; omega⟩

/-- An instruction was fetched: `ip` moved by its length and nothing else changed (R104, R107). -/
theorem State.fetchInstr_cases {t : State} {i : Instr} (e : s.fetchInstr = .ok (i, t)) :
    t = s.setIp (s.ip + i.length) ∧ t.ip ≤ 255 := by
  simp only [State.fetchInstr, bind, Except.bind] at e
  split at e
  · cases e
  · rename_i p hp
    obtain ⟨hi, -, ht⟩ := State.fetchByte_cases (b := p.1) (t := p.2) hp
    split at e
    · cases e
    · rename_i h hh
      obtain ⟨hm, hu, hip⟩ := State.fetchOperands_cases e
      rw [ht] at hu
      simp only [State.setIp_ip, State.setIp_setIp] at hu
      rw [opcodeHandler_length hh hm]
      refine ⟨by rw [hu]; congr 1; push_cast; omega, ?_⟩
      by_cases h0 : 0 < handlerOperands h
      · exact hip h0
      · rw [hu]; simp; omega

end Sys2Proof.Machine
end

