-- ==== Sys2Proof/Laws/Memory.lean ====
section
/-! SUPPORT. The laws of memory: read after write (R66), and that every operation keeps the canonical form. -/

namespace Sys2Proof.Machine

theorem Memory.read_of_not_mem {m : Memory} {a : Nat} (h : ∀ c ∈ m, c.1 ≠ a) :
    m.read a = Memory.unlisted := by
  induction m with
  | nil => rfl
  | cons c rest ih =>
    have hc : a ≠ c.1 := fun e => h c (by simp) e.symm
    obtain ⟨k, b⟩ := c
    simp only [Memory.read, if_neg hc]
    exact ih fun d hd => h d (by simp [hd])

/-- A byte reads as written, and no other byte changes, in a memory of canonical form (R66). -/
theorem Memory.read_write {m : Memory} (h : m.wf) (a k : Nat) (v : Byte) :
    (m.write a v).read k = if k = a then v else m.read k := by
  obtain ⟨hp, -⟩ := h
  induction m with
  | nil =>
    unfold Memory.write
    split <;> by_cases hk : k = a <;> simp_all [Memory.read]
  | cons c rest ih =>
    obtain ⟨j, b⟩ := c
    obtain ⟨hlt, hrest⟩ := List.pairwise_cons.mp hp
    have above : ∀ x, x ≤ j → Memory.read rest x = Memory.unlisted := fun x hx =>
      Memory.read_of_not_mem fun d hd => by have := hlt d hd; simp only at this; omega
    rw [Memory.write]
    by_cases h1 : a < j
    · rw [if_pos h1]
      split
      · rename_i hv
        by_cases hk : k = a
        · subst hk; simp [Memory.read, Nat.ne_of_lt h1, above k (Nat.le_of_lt h1), hv]
        · simp [hk]
      · by_cases hk : k = a <;> simp [Memory.read, hk]
    · rw [if_neg h1]
      by_cases h2 : a = j
      · rw [if_pos h2]
        split
        · rename_i hv
          by_cases hk : k = a
          · subst hk; simp [h2, above j (Nat.le_refl j), hv]
          · simp [Memory.read, hk, ← h2]
        · by_cases hk : k = a <;> simp [Memory.read, hk, ← h2]
      · rw [if_neg h2, Memory.read, ih hrest, Memory.read]
        by_cases hk : k = a
        · subst hk; simp [h2]
        · simp [hk]

theorem Memory.mem_write {m : Memory} {a : Nat} {v : Byte} {c : Host.Cell} (h : c ∈ m.write a v) :
    c ∈ m ∨ (c = (a, v) ∧ v ≠ Memory.unlisted) := by
  induction m with
  | nil =>
    unfold Memory.write at h
    split at h <;> simp_all
  | cons d rest ih =>
    obtain ⟨k, b⟩ := d
    rw [Memory.write] at h
    split at h
    · split at h
      · exact .inl h
      · rename_i hv
        rcases List.mem_cons.mp h with rfl | h
        · exact .inr ⟨rfl, hv⟩
        · exact .inl h
    · split at h
      · split at h
        · exact .inl (List.mem_cons_of_mem _ h)
        · rename_i hv
          rcases List.mem_cons.mp h with rfl | h
          · exact .inr ⟨rfl, hv⟩
          · exact .inl (List.mem_cons_of_mem _ h)
      · rcases List.mem_cons.mp h with rfl | h
        · exact .inl (by simp)
        · rcases ih h with h | h
          · exact .inl (List.mem_cons_of_mem _ h)
          · exact .inr h

/-- A write inside memory keeps the canonical form. -/
theorem Memory.write_wf {m : Memory} (h : m.wf) {a : Nat} (ha : a < Config.memSize) (v : Byte) :
    (m.write a v).wf := by
  refine ⟨?_, fun c hc => ?_⟩
  · obtain ⟨hp, -⟩ := h
    induction m with
    | nil =>
      unfold Memory.write
      split <;> simp
    | cons d rest ih =>
      obtain ⟨k, b⟩ := d
      obtain ⟨hlt, hrest⟩ := List.pairwise_cons.mp hp
      rw [Memory.write]
      split
      · rename_i h1
        split
        · exact hp
        · refine List.pairwise_cons.mpr ⟨fun c hc => ?_, hp⟩
          rcases List.mem_cons.mp hc with rfl | hc
          · exact h1
          · exact Nat.lt_trans h1 (hlt c hc)
      · split
        · rename_i h2
          split
          · exact hrest
          · exact List.pairwise_cons.mpr ⟨fun c hc => h2 ▸ hlt c hc, hrest⟩
        · rename_i h1 h2
          refine List.pairwise_cons.mpr ⟨fun c hc => ?_, ih hrest⟩
          rcases Memory.mem_write hc with hc | ⟨rfl, -⟩
          · exact hlt c hc
          · simp only; omega
  · rcases Memory.mem_write hc with hc | ⟨rfl, hv⟩
    · exact h.2 c hc
    · exact ⟨ha, hv⟩

theorem Memory.nil_wf : Memory.wf [] := ⟨List.Pairwise.nil, by simp⟩

/-- A memory built from a function has the canonical form. -/
theorem Memory.ofFn_wf (f : Nat → Byte) : (Memory.ofFn f).wf := by
  refine ⟨?_, fun c hc => ?_⟩
  · refine List.Pairwise.filterMap (R := (· < ·)) _ (fun a b hab c hc d hd => ?_) List.pairwise_lt_range
    split at hc
    · simp at hc
    · split at hd
      · simp at hd
      · obtain rfl := Option.some.inj hc
        obtain rfl := Option.some.inj hd
        exact hab
  · obtain ⟨a, ha, he⟩ := List.mem_filterMap.mp hc
    split at he
    · simp at he
    · rename_i hv
      obtain rfl := Option.some.inj he
      exact ⟨List.mem_range.mp ha, hv⟩

/-- The state's own byte read after its own byte write. -/
theorem State.readByte_writeByte {s : State} (h : s.mem.wf) (a k : Nat) (v : Byte) :
    (s.writeByte a v).readByte k = if k = a then v else s.readByte k :=
  Memory.read_write h a k v

end Sys2Proof.Machine
end

