-- ==== Sys2Proof/Laws/Stack.lean ====
section
/-! SUPPORT. What a push, a pop and runs of them can do (20_memory.md R62, R63), each said once. -/

namespace Sys2Proof.Machine

theorem State.push_ok {s : State} (v : Byte) (h : Config.stackFloor < (s.reg .r7).toNat) :
    s.push v = .ok ((s.writeByte (s.reg .r7).toNat v).setReg .r7 (BitVec.ofInt 8 ((s.reg .r7).toNat - 1))) := by
  have : ¬ (((s.reg .r7).toNat : Int) - 1 < 0xE0) := by simp at h; omega
  simp [State.push]
  omega

theorem State.push_overflow {s : State} (v : Byte) (h : (s.reg .r7).toNat ≤ Config.stackFloor) :
    s.push v = .error (.stackOverflow (s.reg .r7)) := by
  simp [State.push]
  simp at h
  omega

theorem State.pop_ok {s : State} (h : Config.stackFloor ≤ (s.reg .r7).toNat)
    (h' : (s.reg .r7).toNat < Config.stackStart) :
    s.pop = .ok (s.readByte ((s.reg .r7).toNat + 1),
      s.setReg .r7 (BitVec.ofInt 8 ((s.reg .r7).toNat + 1))) := by
  simp at h h'
  simp [State.pop]
  rw [if_neg (by omega), if_neg (by omega)]

theorem State.pop_underflow {s : State} (h : Config.stackStart ≤ (s.reg .r7).toNat) :
    s.pop = .error (.stackUnderflow (s.reg .r7)) := by
  simp at h
  simp [State.pop, h]

theorem State.pop_overflow {s : State} (h : (s.reg .r7).toNat < Config.stackFloor) :
    s.pop = .error (.stackOverflow (s.reg .r7)) := by
  simp at h
  simp [State.pop]
  rw [if_neg (by omega), if_pos (by omega)]

/-- The decremented stack pointer as a number. -/
theorem toNat_sp_sub {v : Byte} (h : 0 < v.toNat) : (BitVec.ofInt 8 ((v.toNat : Int) - 1)).toNat = v.toNat - 1 := by
  have := v.isLt
  simp [BitVec.toNat_ofInt]
  omega

/-- The incremented stack pointer as a number. -/
theorem toNat_sp_add {v : Byte} (h : v.toNat < 255) : (BitVec.ofInt 8 ((v.toNat : Int) + 1)).toNat = v.toNat + 1 := by
  simp [BitVec.toNat_ofInt]
  omega

/-- A push that answers a state wrote one byte of memory and SP, and nothing else. -/
theorem State.push_cases {s t : State} {v : Byte} (h : s.push v = .ok t) :
    Config.stackFloor < (s.reg .r7).toNat ∧
      t = (s.writeByte (s.reg .r7).toNat v).setReg .r7 (BitVec.ofInt 8 ((s.reg .r7).toNat - 1)) := by
  by_cases hf : Config.stackFloor < (s.reg .r7).toNat
  · rw [State.push_ok v hf] at h
    exact ⟨hf, (Except.ok.inj h).symm⟩
  · rw [State.push_overflow v (Nat.le_of_not_lt hf)] at h
    cases h

/-- A pop that answers a byte and a state read memory and wrote SP, and nothing else. -/
theorem State.pop_cases {s t : State} {v : Byte} (h : s.pop = .ok (v, t)) :
    Config.stackFloor ≤ (s.reg .r7).toNat ∧ (s.reg .r7).toNat < Config.stackStart ∧
      v = s.readByte ((s.reg .r7).toNat + 1) ∧
      t = s.setReg .r7 (BitVec.ofInt 8 ((s.reg .r7).toNat + 1)) := by
  by_cases hs : Config.stackStart ≤ (s.reg .r7).toNat
  · rw [State.pop_underflow hs] at h; cases h
  · by_cases hf : (s.reg .r7).toNat < Config.stackFloor
    · rw [State.pop_overflow hf] at h; cases h
    · rw [State.pop_ok (Nat.le_of_not_lt hf) (Nat.lt_of_not_le hs)] at h
      obtain ⟨rfl, rfl⟩ := Prod.mk.inj (Except.ok.inj h)
      exact ⟨Nat.le_of_not_lt hf, Nat.lt_of_not_le hs, rfl, rfl⟩

/-- What a run of pushes leaves as it was. -/
structure KeptByPushes (s t : State) : Prop where
  flags : t.flags = s.flags
  ip : t.ip = s.ip
  servicing : t.servicing = s.servicing
  run : t.run = s.run
  out : t.out = s.out
  loadNext : t.loadNext = s.loadNext
  params : t.params = s.params
  inputs : t.inputs = s.inputs
  polls : t.polls = s.polls
  freeDraw : t.freeDraw = s.freeDraw
  reg : ∀ q, q ≠ .r7 → t.reg q = s.reg q
  isSet : ∀ q, t.isSet q = s.isSet q

theorem KeptByPushes.refl (s : State) : KeptByPushes s s :=
  ⟨rfl, rfl, rfl, rfl, rfl, rfl, rfl, rfl, rfl, rfl, fun _ _ => rfl, fun _ => rfl⟩

theorem KeptByPushes.trans {s t u : State} (h : KeptByPushes s t) (k : KeptByPushes t u) : KeptByPushes s u :=
  ⟨k.flags.trans h.flags, k.ip.trans h.ip, k.servicing.trans h.servicing, k.run.trans h.run,
    k.out.trans h.out, k.loadNext.trans h.loadNext, k.params.trans h.params, k.inputs.trans h.inputs, k.polls.trans h.polls,
    k.freeDraw.trans h.freeDraw, fun q hq => (k.reg q hq).trans (h.reg q hq),
    fun q => (k.isSet q).trans (h.isSet q)⟩

/-- A push keeps all but SP and memory. -/
theorem State.push_kept {s t : State} {v : Byte} (h : s.push v = .ok t) : KeptByPushes s t := by
  obtain ⟨-, rfl⟩ := State.push_cases h
  refine ⟨rfl, rfl, rfl, rfl, rfl, rfl, rfl, rfl, rfl, rfl, fun q hq => by simp [hq], fun q => ?_⟩
  cases q <;> rfl

/-- The reads and pushes of a list of registers keep all but SP and memory. -/
theorem State.pushRegs_kept {rs : List Reg} : ∀ {s t : State}, s.pushRegs rs = .ok t → KeptByPushes s t := by
  induction rs with
  | nil =>
    intro s t h
    obtain rfl := Except.ok.inj h
    exact .refl s
  | cons r rest ih =>
    intro s t h
    simp only [State.pushRegs, bind, Except.bind] at h
    split at h
    · cases h
    · split at h
      · cases h
      · rename_i hp
        exact (State.push_kept hp).trans (ih h)

/-! ### What pushed bytes leave behind -/

/-- The bytes `vs` were pushed, the first at SP and each next one below it: SP is lower by their number, no
other byte changed and the memory is still canonical. -/
structure Pushed (vs : List Byte) (s t : State) : Prop where
  kept : KeptByPushes s t
  sp : (t.reg .r7).toNat + vs.length = (s.reg .r7).toNat
  bytes : ∀ k, k < vs.length → vs[k]? = some (t.readByte ((s.reg .r7).toNat - k))
  other : ∀ a, ¬ ((s.reg .r7).toNat < a + vs.length ∧ a ≤ (s.reg .r7).toNat) → t.readByte a = s.readByte a
  memWf : t.mem.wf

theorem Pushed.nil {s : State} (h : s.mem.wf) : Pushed [] s s :=
  ⟨.refl s, rfl, fun k hk => absurd hk (Nat.not_lt_zero k), fun _ _ => rfl, h⟩

/-- A push of one byte, as an instance of pushed bytes (R62). -/
theorem Pushed.of_push {s t : State} {v : Byte} (hw : s.mem.wf) (h : s.push v = .ok t) : Pushed [v] s t := by
  have kept := State.push_kept h
  obtain ⟨hf, rfl⟩ := State.push_cases h
  simp only [Config.stackFloor] at hf
  have hs : ((s.writeByte (s.reg .r7).toNat v).setReg .r7
      (BitVec.ofInt 8 ((s.reg .r7).toNat - 1))).reg .r7 = BitVec.ofInt 8 ((s.reg .r7).toNat - 1) := by simp
  have hb : ∀ a, ((s.writeByte (s.reg .r7).toNat v).setReg .r7
      (BitVec.ofInt 8 ((s.reg .r7).toNat - 1))).readByte a =
      if a = (s.reg .r7).toNat then v else s.readByte a := fun a => by
    rw [State.setReg_readByte, State.readByte_writeByte hw]
  refine ⟨kept, ?_, fun k hk => ?_, fun a ha => ?_, ?_⟩
  · rw [hs, toNat_sp_sub (by omega)]
    simp only [List.length_singleton]
    omega
  · obtain rfl : k = 0 := by simpa using hk
    simp [hb]
  · simp only [List.length_singleton] at ha
    rw [hb, if_neg (by omega)]
  · exact Memory.write_wf hw (s.reg .r7).isLt v

/-- A push succeeds where there is room for a byte (R62). -/
theorem State.push_next {s : State} (v : Byte) (hw : s.mem.wf) (h : Config.stackFloor < (s.reg .r7).toNat) :
    ∃ t, s.push v = .ok t ∧ Pushed [v] s t :=
  ⟨_, State.push_ok v h, Pushed.of_push hw (State.push_ok v h)⟩

theorem Pushed.append {s t u : State} {vs ws : List Byte} (h : Pushed vs s t) (k : Pushed ws t u) :
    Pushed (vs ++ ws) s u := by
  have h1 := h.sp
  have h2 := k.sp
  refine ⟨h.kept.trans k.kept, ?_, fun i hi => ?_, fun a ha => ?_, k.memWf⟩
  · rw [List.length_append]; omega
  · rw [List.length_append] at hi
    by_cases hv : i < vs.length
    · rw [List.getElem?_append_left hv, h.bytes i hv, k.other _ (by omega)]
    · rw [List.getElem?_append_right (by omega), k.bytes _ (by omega)]
      congr 2
      omega
  · rw [List.length_append] at ha
    rw [k.other a (by omega), h.other a (by omega)]

/-- Reading and pushing registers: each was set, and the pushed bytes are their contents (R233). -/
theorem State.pushRegs_pushed {rs : List Reg} : ∀ {s t : State}, s.mem.wf → Reg.r7 ∉ rs →
    s.pushRegs rs = .ok t → Pushed (rs.map s.reg) s t ∧ ∀ r ∈ rs, s.isSet r = true := by
  induction rs with
  | nil =>
    intro s t hw _ h
    obtain rfl := Except.ok.inj h
    exact ⟨.nil hw, by simp⟩
  | cons r rest ih =>
    intro s t hw h7 h
    have h7rest : Reg.r7 ∉ rest := fun m => h7 (List.mem_cons_of_mem _ m)
    simp only [State.pushRegs, bind, Except.bind] at h
    split at h
    · cases h
    · rename_i v hv
      obtain ⟨hset, rfl⟩ := State.readReg_ok_iff.mp hv
      split at h
      · cases h
      · rename_i u hu
        have one := Pushed.of_push hw hu
        obtain ⟨more, hall⟩ := ih one.memWf h7rest h
        have same : rest.map u.reg = rest.map s.reg :=
          List.map_congr_left fun q hq => one.kept.reg q fun e => h7rest (e ▸ hq)
        refine ⟨by rw [List.map_cons, ← same]; exact one.append more, fun q hq => ?_⟩
        rcases List.mem_cons.mp hq with rfl | hq
        · exact hset
        · rw [← one.kept.isSet]; exact hall q hq

/-- Reading and pushing set registers succeeds where there is room (R62, R233). -/
theorem State.pushRegs_ok {rs : List Reg} : ∀ {s : State}, s.mem.wf → (∀ r ∈ rs, s.isSet r = true) →
    Config.stackFloor + rs.length ≤ (s.reg .r7).toNat → ∃ t, s.pushRegs rs = .ok t := by
  induction rs with
  | nil => exact fun _ _ _ => ⟨_, rfl⟩
  | cons r rest ih =>
    intro s hw hset hroom
    simp only [Config.stackFloor, List.length_cons] at hroom
    obtain ⟨u, hp, one⟩ := State.push_next (s.reg r) hw (by simp only [Config.stackFloor]; omega)
    obtain ⟨t, ht⟩ := ih one.memWf
      (fun q hq => by rw [one.kept.isSet]; exact hset q (List.mem_cons_of_mem _ hq))
      (by have := one.sp; simp only [Config.stackFloor, List.length_singleton] at this ⊢; omega)
    refine ⟨t, ?_⟩
    rw [State.pushRegs, State.readReg_of_isSet (hset r (by simp))]
    simp only [bind, Except.bind, hp]
    exact ht

end Sys2Proof.Machine
end

