-- ==== Sys2Proof/Laws/Instructions.lean ====
section
/-! SUPPORT. What the shapes of the meanings can do (41_alu.md R121 to R124, 43_control.md R182), each said
once, and the cases of an outcome that settled. -/

namespace Sys2Proof.Machine

@[simp] theorem settle_ok (s t : State) : settle s (.ok t) = .next t := rfl
@[simp] theorem settle_error (s : State) (c : Condition) : settle s (.error c) = .next (s.raise c) := rfl

/-- An outcome that settled is the state of the effect, or the fatal condition it raised (R12, R221). -/
theorem settle_cases {s t : State} {e : Except Condition State} (h : settle s e = .next t) :
    e = .ok t ∨ ∃ c, e = .error c ∧ t = s.raise c := by
  cases e with
  | ok u => exact .inl (by simpa using h)
  | error c => exact .inr ⟨c, rfl, by simpa using h.symm⟩

theorem settle_next (s : State) (e : Except Condition State) : ∃ t, settle s e = .next t := by
  cases e <;> exact ⟨_, rfl⟩

/-- Every arm of `exec` has a next state: a meaning is total (R221). -/
theorem exec_next (i : Instr) (s : State) : ∃ t, exec i s = .next t := by
  cases i <;> first | exact settle_next _ _ | exact ⟨_, rfl⟩

section Shapes

variable {s : State} {a b r : Reg}

theorem twoReg_ok (f : Byte → Byte → Byte) (ha : s.isSet a = true) (hb : s.isSet b = true) :
    twoReg f a b s = .next (s.setReg a (f (s.reg a) (s.reg b))) := by
  simp [twoReg, ha, hb, bind, Except.bind, pure, Except.pure]

theorem twoReg_unset_first (f : Byte → Byte → Byte) (ha : s.isSet a = false) :
    twoReg f a b s = .next (s.raise (.unsetRegister a)) := by
  simp [twoReg, ha, bind, Except.bind]

theorem twoReg_unset_second (f : Byte → Byte → Byte) (ha : s.isSet a = true) (hb : s.isSet b = false) :
    twoReg f a b s = .next (s.raise (.unsetRegister b)) := by
  simp [twoReg, ha, hb, bind, Except.bind]

theorem twoRegDivision_ok (f : Byte → Byte → Byte) (ha : s.isSet a = true) (hb : s.isSet b = true)
    (hz : (s.reg b).toInt ≠ 0) :
    twoRegDivision f a b s = .next (s.setReg a (f (s.reg a) (s.reg b))) := by
  simp [twoRegDivision, ha, hb, hz, bind, Except.bind]

theorem twoRegDivision_zero (f : Byte → Byte → Byte) (ha : s.isSet a = true) (hb : s.isSet b = true)
    (hz : (s.reg b).toInt = 0) :
    twoRegDivision f a b s = .next (s.raise (.divisionByZero a b)) := by
  simp [twoRegDivision, ha, hb, hz, bind, Except.bind]

theorem twoRegDivision_unset_first (f : Byte → Byte → Byte) (ha : s.isSet a = false) :
    twoRegDivision f a b s = .next (s.raise (.unsetRegister a)) := by
  simp [twoRegDivision, ha, bind, Except.bind]

theorem twoRegDivision_unset_second (f : Byte → Byte → Byte) (ha : s.isSet a = true)
    (hb : s.isSet b = false) :
    twoRegDivision f a b s = .next (s.raise (.unsetRegister b)) := by
  simp [twoRegDivision, ha, hb, bind, Except.bind]

theorem oneReg_ok (f : Byte → Byte) (hr : s.isSet r = true) :
    oneReg f r s = .next (s.setReg r (f (s.reg r))) := by
  simp [oneReg, hr, bind, Except.bind, pure, Except.pure]

theorem oneReg_unset (f : Byte → Byte) (hr : s.isSet r = false) :
    oneReg f r s = .next (s.raise (.unsetRegister r)) := by
  simp [oneReg, hr, bind, Except.bind]

theorem immReg_ok (f : Byte → Byte → Byte) (i : Byte) (hr : s.isSet r = true) :
    immReg f r i s = .next (s.setReg r (f (s.reg r) i)) := by
  simp [immReg, hr, bind, Except.bind, pure, Except.pure]

theorem immReg_unset (f : Byte → Byte → Byte) (i : Byte) (hr : s.isSet r = false) :
    immReg f r i s = .next (s.raise (.unsetRegister r)) := by
  simp [immReg, hr, bind, Except.bind]

theorem compareRegs_ok (f : Byte → Byte → Flags) (ha : s.isSet a = true) (hb : s.isSet b = true) :
    compareRegs f a b s = .next (s.setFlags (f (s.reg a) (s.reg b))) := by
  simp [compareRegs, ha, hb, bind, Except.bind, pure, Except.pure]

theorem compareRegs_unset_first (f : Byte → Byte → Flags) (ha : s.isSet a = false) :
    compareRegs f a b s = .next (s.raise (.unsetRegister a)) := by
  simp [compareRegs, ha, bind, Except.bind]

theorem compareRegs_unset_second (f : Byte → Byte → Flags) (ha : s.isSet a = true)
    (hb : s.isSet b = false) :
    compareRegs f a b s = .next (s.raise (.unsetRegister b)) := by
  simp [compareRegs, ha, hb, bind, Except.bind]

theorem jumpIf_not_taken : jumpIf false r s = .next s := rfl

theorem jumpIf_taken (hr : s.isSet r = true) : jumpIf true r s = .next (s.jumpTo (s.reg r).toNat) := by
  simp [jumpIf, hr, bind, Except.bind, pure, Except.pure]

theorem jumpIf_unset (hr : s.isSet r = false) : jumpIf true r s = .next (s.raise (.unsetRegister r)) := by
  simp [jumpIf, hr, bind, Except.bind]

end Shapes

section Cases

variable {s t : State} {a b r : Reg}

/-- Where the two-register shape leads: its write, or a fatal condition. -/
theorem twoReg_cases {f : Byte → Byte → Byte} (h : twoReg f a b s = .next t) :
    (∃ v, t = s.setReg a v) ∨ ∃ c, t = s.raise c := by
  cases ha : s.isSet a
  · rw [twoReg_unset_first f ha] at h
    exact .inr ⟨_, by simpa using h.symm⟩
  · cases hb : s.isSet b
    · rw [twoReg_unset_second f ha hb] at h
      exact .inr ⟨_, by simpa using h.symm⟩
    · rw [twoReg_ok f ha hb] at h
      exact .inl ⟨_, by simpa using h.symm⟩

theorem twoRegDivision_cases {f : Byte → Byte → Byte} (h : twoRegDivision f a b s = .next t) :
    (∃ v, t = s.setReg a v) ∨ ∃ c, t = s.raise c := by
  cases ha : s.isSet a
  · rw [twoRegDivision_unset_first f ha] at h
    exact .inr ⟨_, by simpa using h.symm⟩
  · cases hb : s.isSet b
    · rw [twoRegDivision_unset_second f ha hb] at h
      exact .inr ⟨_, by simpa using h.symm⟩
    · by_cases hz : (s.reg b).toInt = 0
      · rw [twoRegDivision_zero f ha hb hz] at h
        exact .inr ⟨_, by simpa using h.symm⟩
      · rw [twoRegDivision_ok f ha hb hz] at h
        exact .inl ⟨_, by simpa using h.symm⟩

theorem oneReg_cases {f : Byte → Byte} (h : oneReg f r s = .next t) :
    (∃ v, t = s.setReg r v) ∨ ∃ c, t = s.raise c := by
  cases hr : s.isSet r
  · rw [oneReg_unset f hr] at h
    exact .inr ⟨_, by simpa using h.symm⟩
  · rw [oneReg_ok f hr] at h
    exact .inl ⟨_, by simpa using h.symm⟩

theorem immReg_cases {f : Byte → Byte → Byte} {i : Byte} (h : immReg f r i s = .next t) :
    (∃ v, t = s.setReg r v) ∨ ∃ c, t = s.raise c := by
  cases hr : s.isSet r
  · rw [immReg_unset f i hr] at h
    exact .inr ⟨_, by simpa using h.symm⟩
  · rw [immReg_ok f i hr] at h
    exact .inl ⟨_, by simpa using h.symm⟩

theorem compareRegs_cases {f : Byte → Byte → Flags} (h : compareRegs f a b s = .next t) :
    (∃ v, t = s.setFlags v) ∨ ∃ c, t = s.raise c := by
  cases ha : s.isSet a
  · rw [compareRegs_unset_first f ha] at h
    exact .inr ⟨_, by simpa using h.symm⟩
  · cases hb : s.isSet b
    · rw [compareRegs_unset_second f ha hb] at h
      exact .inr ⟨_, by simpa using h.symm⟩
    · rw [compareRegs_ok f ha hb] at h
      exact .inl ⟨_, by simpa using h.symm⟩

theorem jumpIf_cases {taken : Bool} (h : jumpIf taken r s = .next t) :
    t = s ∨ (∃ k, t = s.jumpTo k) ∨ ∃ c, t = s.raise c := by
  cases taken
  · exact .inl (by simpa [jumpIf_not_taken] using h.symm)
  · cases hr : s.isSet r
    · rw [jumpIf_unset hr] at h
      exact .inr (.inr ⟨_, by simpa using h.symm⟩)
    · rw [jumpIf_taken hr] at h
      exact .inr (.inl ⟨_, by simpa using h.symm⟩)

end Cases

end Sys2Proof.Machine
end

