-- ==== Sys2Proof/Laws/Effects.lean ====
section
/-! SUPPORT. Where an instruction and a step can lead, each said once: the effect of every instruction as the
operation it performs, or a fatal condition. -/

namespace Sys2Proof.Machine

/-- Where a conditional jump leads: to the register's address where it is taken, on to the next instruction
where it is not (R182). -/
def JumpsIf (taken : Bool) (r : Reg) (s t : State) : Prop :=
  t = if taken then s.jumpTo (addr (s.reg r)) else s

/-- A jump changed nothing or moved `ip` to an address. -/
theorem JumpsIf.same_or_jumped {taken : Bool} {r : Reg} {s t : State} (h : JumpsIf taken r s t) :
    t = s ∨ ∃ k, t = s.jumpTo k ∧ k ≤ 255 := by
  cases taken
  · exact .inl h
  · exact .inr ⟨_, h, by have := (s.reg r).isLt; simp only [addr, uval]; omega⟩

/-- A jump that is not taken changed nothing. -/
theorem JumpsIf.not_taken {taken : Bool} {r : Reg} {s t : State} (h : JumpsIf taken r s t)
    (hn : taken = false) : t = s := by
  subst hn; exact h

/-- What instruction `i` does to `s` where it raises nothing: `t` is the state after it. -/
def Effect (i : Instr) (s t : State) : Prop :=
  match i with
  | .nop => t = s
  | .hlt => t = s.setRun .halted
  | .ret => ∃ v u, s.pop = .ok (v, u) ∧ t = u.setIp (returnIp s.params.callLink v)
  | .iret => s.interruptReturn = .ok t
  | .push r => s.isSet r = true ∧ s.push (s.reg r) = .ok t
  | .pop r => ∃ v u, s.pop = .ok (v, u) ∧ t = u.setReg r v
  | .prn r => t = s.emit (.num (s.reg r))
  | .pra r => t = s.emit (.chr (s.reg r))
  | .call r => ∃ u, s.push (callLink s.params.callLink s.ip) = .ok u ∧ t = u.jumpTo (addr (s.reg r))
  | .int r => (s.reg r).toNat ≤ 7 ∧ t = s.raiseLine (s.reg r).toNat
  | .jmp r => t = s.jumpTo (addr (s.reg r))
  | .jeq r => JumpsIf s.flags.jeq r s t
  | .jne r => JumpsIf s.flags.jne r s t
  | .jgt r => JumpsIf s.flags.jgt r s t
  | .jlt r => JumpsIf s.flags.jlt r s t
  | .jle r => JumpsIf s.flags.jle r s t
  | .jge r => JumpsIf s.flags.jge r s t
  | .ldi r i => t = s.setReg r i
  | .ld a b => t = s.setReg a (s.readByte (addr (s.reg b)))
  | .st a b => s.isSet a = true ∧ s.isSet b = true ∧ t = s.writeByte (addr (s.reg a)) (s.reg b)
  | .cmp _ _ => ∃ f, t = s.setFlags f
  | .inc r | .dec r | .not r | .addi r _ => ∃ v, t = s.setReg r v
  | .add a _ | .sub a _ | .mul a _ | .div a _ | .mod a _ => ∃ v, t = s.setReg a v
  | .and a _ | .or a _ | .xor a _ | .shl a _ | .shr a _ => ∃ v, t = s.setReg a v

variable {s t : State}

theorem jumpIf_effect {taken : Bool} {r : Reg} (h : jumpIf taken r s = .next t) :
    JumpsIf taken r s t ∨ ∃ c, t = s.raise c := by
  cases taken
  · exact .inl (by simpa [jumpIf_not_taken, JumpsIf] using h.symm)
  · cases hr : s.isSet r
    · rw [jumpIf_unset hr] at h
      exact .inr ⟨_, by simpa using h.symm⟩
    · rw [jumpIf_taken hr] at h
      exact .inl (by simpa [JumpsIf] using h.symm)

/-- A register read in front of an effect: the effect of the set register, or a fatal condition (R24). -/
theorem readReg_bind_cases {r : Reg} {f : Byte → Except Condition State}
    (h : settle s (s.readReg r >>= f) = .next t) :
    (s.isSet r = true ∧ settle s (f (s.reg r)) = .next t) ∨ ∃ c, t = s.raise c := by
  cases hr : s.isSet r
  · simp [hr, bind, Except.bind] at h
    exact .inr ⟨_, h.symm⟩
  · simp only [State.readReg_of_isSet hr, bind, Except.bind] at h
    exact .inl ⟨rfl, h⟩

theorem next_inj {u : State} (h : (.next u : Host.Outcome State Fault Refusal) = .next t) : t = u :=
  (Host.Outcome.next.inj h).symm

/-- Every arm of `exec` has its instruction's effect or raises a fatal condition. -/
theorem exec_cases {i : Instr} (h : exec i s = .next t) : Effect i s t ∨ ∃ c, t = s.raise c := by
  cases i with
  | nop => exact .inl (next_inj h)
  | hlt => exact .inl (next_inj h)
  | ret =>
    rcases settle_cases h with h | h
    · simp only [bind, Except.bind] at h
      split at h
      · cases h
      · rename_i p hp
        exact .inl ⟨p.1, p.2, hp, (Except.ok.inj h).symm⟩
    · exact .inr (h.imp fun _ => And.right)
  | iret => exact (settle_cases h).imp id fun h => h.imp fun _ => And.right
  | push r =>
    rcases readReg_bind_cases h with ⟨hr, h⟩ | h
    · exact (settle_cases h).imp (fun h => ⟨hr, h⟩) fun h => h.imp fun _ => And.right
    · exact .inr h
  | pop r =>
    rcases settle_cases h with h | h
    · simp only [bind, Except.bind] at h
      split at h
      · cases h
      · rename_i p hp
        exact .inl ⟨p.1, p.2, hp, (Except.ok.inj h).symm⟩
    · exact .inr (h.imp fun _ => And.right)
  | prn r =>
    rcases readReg_bind_cases h with ⟨-, h⟩ | h
    · exact .inl (next_inj h)
    · exact .inr h
  | pra r =>
    rcases readReg_bind_cases h with ⟨-, h⟩ | h
    · exact .inl (next_inj h)
    · exact .inr h
  | call r =>
    rcases readReg_bind_cases h with ⟨-, h⟩ | h
    · rcases settle_cases h with h | h
      · simp only [bind, Except.bind] at h
        split at h
        · cases h
        · rename_i u hu
          exact .inl ⟨u, hu, (Except.ok.inj h).symm⟩
      · exact .inr (h.imp fun _ => And.right)
    · exact .inr h
  | int r =>
    rcases readReg_bind_cases h with ⟨-, h⟩ | h
    · split at h
      · exact .inr ⟨_, by simpa using h.symm⟩
      · rename_i hl
        exact .inl ⟨by simpa using hl, by simpa using h.symm⟩
    · exact .inr h
  | jmp r =>
    rcases readReg_bind_cases h with ⟨-, h⟩ | h
    · exact .inl (next_inj h)
    · exact .inr h
  | jeq r => exact jumpIf_effect h
  | jne r => exact jumpIf_effect h
  | jgt r => exact jumpIf_effect h
  | jlt r => exact jumpIf_effect h
  | jle r => exact jumpIf_effect h
  | jge r => exact jumpIf_effect h
  | ldi r i => exact .inl (next_inj h)
  | ld a b =>
    rcases readReg_bind_cases h with ⟨-, h⟩ | h
    · exact .inl (next_inj h)
    · exact .inr h
  | st a b =>
    rcases readReg_bind_cases h with ⟨ha, h⟩ | h
    · rcases readReg_bind_cases h with ⟨hb, h⟩ | h
      · exact .inl ⟨ha, hb, by simpa [pure, Except.pure] using h.symm⟩
      · exact .inr h
    · exact .inr h
  | add a b => exact twoReg_cases h
  | sub a b => exact twoReg_cases h
  | mul a b => exact twoReg_cases h
  | div a b => exact twoRegDivision_cases h
  | mod a b => exact twoRegDivision_cases h
  | inc r => exact oneReg_cases h
  | dec r => exact oneReg_cases h
  | cmp a b => exact compareRegs_cases h
  | and a b => exact twoReg_cases h
  | not r => exact oneReg_cases h
  | or a b => exact twoReg_cases h
  | xor a b => exact twoReg_cases h
  | shl a b => exact twoReg_cases h
  | shr a b => exact twoReg_cases h
  | addi r i => exact immReg_cases h

/-- Where a step can lead: an interrupt entry on a line that is pending and enabled, an instruction's meaning
after its fetch, or a fatal condition of the polled or the fetched state (R100, R104). -/
inductive StepLeads (s t : State) : Prop where
  | entry (i : Nat) (hp : s.poll.preempts = true)
      (hl : lowestLine (s.poll.reg .r5) (s.poll.reg .r6) = some i) (h : s.poll.enterLine i = .ok t)
  | entryNone (hp : s.poll.preempts = true)
      (hl : lowestLine (s.poll.reg .r5) (s.poll.reg .r6) = none) (h : t = s.poll)
  | entryRaise (c : Condition) (hp : s.poll.preempts = true) (h : t = s.poll.raise c)
  | fetchRaise (c : Condition) (hp : s.poll.preempts = false) (h : t = s.poll.raise c)
  | instr (i : Instr) (u : State) (hp : s.poll.preempts = false) (hf : s.poll.fetchInstr = .ok (i, u))
      (h : Effect i u t)
  | instrRaise (i : Instr) (u : State) (c : Condition) (hp : s.poll.preempts = false)
      (hf : s.poll.fetchInstr = .ok (i, u)) (h : t = u.raise c)

theorem step_cases (h : step s = .next t) : s.run = .running ∧ StepLeads s t := by
  unfold step at h
  split at h
  · rename_i hr
    refine ⟨hr, ?_⟩
    simp only [iteration] at h
    split at h
    · rename_i hp
      rcases settle_cases h with h | ⟨c, -, h⟩
      · unfold State.interruptEntry at h
        split at h
        · rename_i hl
          exact .entryNone hp hl (Except.ok.inj h).symm
        · rename_i i hl
          exact .entry i hp hl h
      · exact .entryRaise c hp h
    · rename_i hp
      have hp : s.poll.preempts = false := by simpa using hp
      unfold runInstr at h
      split at h
      · exact .fetchRaise _ hp (by simpa using h.symm)
      · rename_i i u hf
        rcases exec_cases h with h | ⟨c, h⟩
        · exact .instr i u hp hf h
        · exact .instrRaise i u c hp hf h
  · cases h
  · cases h

end Sys2Proof.Machine
end

