-- ==== Sys2Proof/Laws/Interrupt.lean ====
section
/-! SUPPORT. What interrupt entry and the return from an interrupt can do (60_exceptions.md R233 to R236), each
said once. -/

namespace Sys2Proof.Machine

/-- The state interrupt entry on line `i` saves: the status bit is already clear (R232). -/
def State.taken (s : State) (i : Nat) : State := s.setReg .r6 (s.reg .r6 &&& ~~~(1#8 <<< i))

/-- The bytes interrupt entry on line `i` pushes, in order (R233). -/
def State.entryBytes (s : State) (i : Nat) : List Byte :=
  [trunc8 s.ip, s.flags.toByte] ++ [Reg.r0, .r1, .r2, .r3, .r4, .r5, .r6].map (s.taken i).reg

/-- Entry that answers a state pushed its nine bytes, set `servicing` and continues at the vector (R233). -/
theorem State.enterLine_cases {s t : State} {i : Nat} (hw : s.mem.wf) (h : s.enterLine i = .ok t) :
    ∃ u, Pushed (s.entryBytes i) (s.taken i) u ∧ (∀ r, s.isSet r = true) ∧
      t = (u.jumpTo (addr (u.readByte (Config.vtBase + i)))).setServicing true := by
  simp only [State.enterLine, bind, Except.bind] at h
  split at h
  · cases h
  · rename_i a ha
    split at h
    · cases h
    · rename_i b hb
      split at h
      · cases h
      · rename_i u hu
        have pa : Pushed [trunc8 s.ip] (s.taken i) a := Pushed.of_push hw ha
        have pb := Pushed.of_push pa.memWf hb
        obtain ⟨pu, hset⟩ := State.pushRegs_pushed pb.memWf (by decide) hu
        have kept := pa.kept.trans pb.kept
        have same : [Reg.r0, .r1, .r2, .r3, .r4, .r5, .r6].map b.reg =
            [Reg.r0, .r1, .r2, .r3, .r4, .r5, .r6].map (s.taken i).reg :=
          List.map_congr_left fun q hq => kept.reg q fun e => absurd (e ▸ hq) (by decide)
        rw [same] at pu
        rw [pa.kept.flags] at pb
        refine ⟨u, by simpa [State.entryBytes, State.taken] using (pa.append pb).append pu, fun r => ?_,
          (Except.ok.inj h).symm⟩
        have hr : ∀ q : Reg, b.isSet q = s.isSet q := fun q => by
          rw [kept.isSet, State.taken]
          cases q <;> simp
        by_cases h7 : r = .r7
        · rw [h7]; rfl
        · rw [← hr]
          exact hset r (by revert h7; cases r <;> decide)

/-- Entry succeeds where every register is set and nine bytes fit (R233). -/
theorem State.enterLine_ok {s : State} (i : Nat) (hw : s.mem.wf) (hset : ∀ r, s.isSet r = true)
    (hroom : Config.stackFloor + 9 ≤ (s.reg .r7).toNat) : ∃ t, s.enterLine i = .ok t := by
  simp only [Config.stackFloor] at hroom
  have h7 : (s.taken i).reg .r7 = s.reg .r7 := by simp [State.taken]
  obtain ⟨a, ea, pa⟩ := State.push_next (s := s.taken i) (trunc8 s.ip) hw
    (by rw [h7]; simp only [Config.stackFloor]; omega)
  have la := pa.sp
  rw [h7] at la
  simp only [List.length_singleton] at la
  obtain ⟨b, eb, pb⟩ := State.push_next s.flags.toByte pa.memWf (by simp only [Config.stackFloor]; omega)
  have lb := pb.sp
  simp only [List.length_singleton] at lb
  obtain ⟨u, hu⟩ := State.pushRegs_ok (rs := [.r0, .r1, .r2, .r3, .r4, .r5, .r6]) pb.memWf
    (fun q _ => by
      rw [pb.kept.isSet, pa.kept.isSet, State.taken, State.isSet_setReg]
      split
      · rfl
      · exact hset q)
    (by simp only [Config.stackFloor, List.length_cons, List.length_nil]; omega)
  have hf : a.flags = s.flags := pa.kept.flags
  refine ⟨(u.jumpTo (addr (u.readByte (Config.vtBase + i)))).setServicing true, ?_⟩
  simp only [State.enterLine, bind, Except.bind]
  rw [show s.setReg .r6 (s.reg .r6 &&& ~~~(1#8 <<< i)) = s.taken i from rfl,
    show (s.taken i).ip = s.ip from rfl, ea]
  simp only [hf, eb, hu]
  rfl

/-- What pops into registers leave as it was. -/
structure KeptByPops (rs : List Reg) (s t : State) : Prop where
  flags : t.flags = s.flags
  ip : t.ip = s.ip
  servicing : t.servicing = s.servicing
  run : t.run = s.run
  out : t.out = s.out
  mem : t.mem = s.mem
  loadNext : t.loadNext = s.loadNext
  params : t.params = s.params
  inputs : t.inputs = s.inputs
  polls : t.polls = s.polls
  freeDraw : t.freeDraw = s.freeDraw
  reg : ∀ q, q ≠ .r7 → q ∉ rs → t.reg q = s.reg q
  isSet : ∀ q, s.isSet q = true → t.isSet q = true
  set : ∀ q ∈ rs, t.isSet q = true

/-- A pop keeps all but SP (R63). -/
theorem State.pop_kept {s t : State} {v : Byte} (h : s.pop = .ok (v, t)) : KeptByPops [] s t := by
  obtain ⟨-, -, -, rfl⟩ := State.pop_cases h
  refine ⟨rfl, rfl, rfl, rfl, rfl, rfl, rfl, rfl, rfl, rfl, rfl, fun q hq _ => by simp [hq], fun q hq => ?_, by simp⟩
  rw [State.isSet_setReg]
  split
  · rfl
  · exact hq

/-- Pops into registers keep all but those registers and SP (R206). -/
theorem State.popRegs_kept {rs : List Reg} : ∀ {s t : State}, s.popRegs rs = .ok t → KeptByPops rs s t := by
  induction rs with
  | nil =>
    intro s t h
    obtain rfl := Except.ok.inj h
    exact ⟨rfl, rfl, rfl, rfl, rfl, rfl, rfl, rfl, rfl, rfl, rfl, fun _ _ _ => rfl, fun _ hq => hq, by simp⟩
  | cons r rest ih =>
    intro s t h
    simp only [State.popRegs, bind, Except.bind] at h
    split at h
    · cases h
    · rename_i p hp
      have k := State.pop_kept (v := p.1) (t := p.2) hp
      have m := ih h
      refine ⟨m.flags.trans k.flags, m.ip.trans k.ip, m.servicing.trans k.servicing, m.run.trans k.run,
        m.out.trans k.out, m.mem.trans k.mem, m.loadNext.trans k.loadNext, m.params.trans k.params,
        m.inputs.trans k.inputs, m.polls.trans k.polls, m.freeDraw.trans k.freeDraw, fun q h7 hq => ?_, fun q hq => ?_, fun q hq => ?_⟩
      · rw [m.reg q h7 fun e => hq (List.mem_cons_of_mem _ e),
          State.reg_setReg_other _ _ fun e => hq (by simp [e]), k.reg q h7 (by simp)]
      · apply m.isSet
        rw [State.isSet_setReg]
        split
        · rfl
        · exact k.isSet q hq
      · rcases List.mem_cons.mp hq with rfl | hq
        · exact m.isSet _ (by simp)
        · exact m.set q hq

/-- Pops into registers succeed where the bytes are there: register `k` of the list gets byte `k` above SP, and
SP ends higher by their number (R63, R206). -/
theorem State.popRegs_ok {rs : List Reg} : ∀ {s : State}, Config.stackFloor ≤ (s.reg .r7).toNat →
    (s.reg .r7).toNat + rs.length ≤ Config.stackStart → Reg.r7 ∉ rs → rs.Nodup →
    ∃ t, s.popRegs rs = .ok t ∧ (t.reg .r7).toNat = (s.reg .r7).toNat + rs.length ∧
      ∀ k (h : k < rs.length), t.reg rs[k] = s.readByte ((s.reg .r7).toNat + 1 + k) := by
  induction rs with
  | nil => exact fun _ _ _ _ => ⟨_, rfl, rfl, fun k h => absurd h (Nat.not_lt_zero k)⟩
  | cons r rest ih =>
    intro s h1 h2 h7 hd
    have h7r : Reg.r7 ≠ r := fun e => h7 (by simp [e])
    have h7rest : Reg.r7 ∉ rest := fun m => h7 (List.mem_cons_of_mem _ m)
    obtain ⟨hr, hrest⟩ := List.nodup_cons.mp hd
    simp only [Config.stackStart, Config.stackFloor, List.length_cons] at h1 h2
    have hp := State.pop_ok (s := s) h1 (by simp only [Config.stackStart]; omega)
    have hs : (((s.setReg .r7 (BitVec.ofInt 8 ((s.reg .r7).toNat + 1))).setReg r
        (s.readByte ((s.reg .r7).toNat + 1))).reg .r7).toNat = (s.reg .r7).toNat + 1 := by
      rw [State.reg_setReg_other _ _ h7r, State.reg_setReg_same, toNat_sp_add (by omega)]
    obtain ⟨t, ht, hsp, hv⟩ := ih (s := (s.setReg .r7 (BitVec.ofInt 8 ((s.reg .r7).toNat + 1))).setReg r
      (s.readByte ((s.reg .r7).toNat + 1))) (by rw [hs]; simp only [Config.stackFloor]; omega)
      (by rw [hs]; simp only [Config.stackStart]; omega) h7rest hrest
    rw [hs] at hsp hv
    refine ⟨t, by simp only [State.popRegs, bind, Except.bind, hp]; exact ht,
      by rw [hsp, List.length_cons]; omega, fun k hk => ?_⟩
    cases k with
    | zero => simpa using (State.popRegs_kept ht).reg r (Ne.symm h7r) hr
    | succ k =>
      simp only [List.length_cons, Nat.add_lt_add_iff_right] at hk
      rw [List.getElem_cons_succ, hv k hk, State.setReg_readByte, State.setReg_readByte]
      congr 1
      omega

/-- A return that answers a state left R7, the memory and everything no program names as pops leave them, and
wrote `ip` and the flags from bytes and cleared `servicing` (R206). -/
theorem State.interruptReturn_cases {s t : State} (h : s.interruptReturn = .ok t) :
    ∃ (u : State) (a b : Byte), KeptByPops [.r6, .r5, .r4, .r3, .r2, .r1, .r0] s u ∧
      t = ((u.setFlags (Flags.ofByte b)).setIp a.toNat).setServicing false := by
  simp only [State.interruptReturn, bind, Except.bind] at h
  split at h
  · cases h
  · rename_i u hu
    split at h
    · cases h
    · rename_i p hp
      split at h
      · cases h
      · rename_i q hq
        have k := State.popRegs_kept hu
        have m := State.pop_kept (v := p.1) (t := p.2) hp
        have n := State.pop_kept (v := q.1) (t := q.2) hq
        obtain rfl := Except.ok.inj h
        have hf : q.2.flags = Flags.ofByte p.1 := n.flags
        refine ⟨q.2.setFlags s.flags, q.1, p.1, ⟨rfl, n.ip.trans (m.ip.trans k.ip),
          n.servicing.trans (m.servicing.trans k.servicing), n.run.trans (m.run.trans k.run),
          n.out.trans (m.out.trans k.out), n.mem.trans (m.mem.trans k.mem),
          n.loadNext.trans (m.loadNext.trans k.loadNext), n.params.trans (m.params.trans k.params),
          n.inputs.trans (m.inputs.trans k.inputs), n.polls.trans (m.polls.trans k.polls),
          n.freeDraw.trans (m.freeDraw.trans k.freeDraw),
          fun r h7 hr => ?_, fun r hr => ?_, fun r hr => ?_⟩, ?_⟩
        · exact (n.reg r h7 (by simp)).trans ((m.reg r h7 (by simp)).trans (k.reg r h7 hr))
        · exact n.isSet r (m.isSet r (k.isSet r hr))
        · exact n.isSet r (m.isSet r (k.set r hr))
        · rw [← hf]; rfl

end Sys2Proof.Machine
end

