-- ==== Sys2Proof/Laws/Poll.lean ====
section
/-! SUPPORT. What the poll can change: R6 and the keyboard cell (R240 to R242). -/

namespace Sys2Proof.Machine

variable (s : State)

/-! ### the timer -/

@[simp] theorem State.pollTimer_flags (tick : Bool) : (s.pollTimer tick).flags = s.flags := by
  unfold State.pollTimer; split <;> rfl
@[simp] theorem State.pollTimer_ip (tick : Bool) : (s.pollTimer tick).ip = s.ip := by
  unfold State.pollTimer; split <;> rfl
@[simp] theorem State.pollTimer_servicing (tick : Bool) : (s.pollTimer tick).servicing = s.servicing := by
  unfold State.pollTimer; split <;> rfl
@[simp] theorem State.pollTimer_run (tick : Bool) : (s.pollTimer tick).run = s.run := by
  unfold State.pollTimer; split <;> rfl
@[simp] theorem State.pollTimer_out (tick : Bool) : (s.pollTimer tick).out = s.out := by
  unfold State.pollTimer; split <;> rfl
@[simp] theorem State.pollTimer_loadNext (tick : Bool) : (s.pollTimer tick).loadNext = s.loadNext := by
  unfold State.pollTimer; split <;> rfl
@[simp] theorem State.pollTimer_params (tick : Bool) : (s.pollTimer tick).params = s.params := by
  unfold State.pollTimer; split <;> rfl
@[simp] theorem State.pollTimer_freeDraw (tick : Bool) : (s.pollTimer tick).freeDraw = s.freeDraw := by
  unfold State.pollTimer; split <;> rfl
@[simp] theorem State.pollTimer_mem (tick : Bool) : (s.pollTimer tick).mem = s.mem := by
  unfold State.pollTimer; split <;> rfl
@[simp] theorem State.pollTimer_inputs (tick : Bool) : (s.pollTimer tick).inputs = s.inputs := by
  unfold State.pollTimer; split <;> rfl
@[simp] theorem State.pollTimer_polls (tick : Bool) : (s.pollTimer tick).polls = s.polls := by
  unfold State.pollTimer; split <;> rfl

theorem State.reg_pollTimer (tick : Bool) (q : Reg) (h : q ≠ .r6) : (s.pollTimer tick).reg q = s.reg q := by
  unfold State.pollTimer; split
  · simp [State.raiseLine, h]
  · rfl

@[simp] theorem State.isSet_pollTimer (tick : Bool) (q : Reg) : (s.pollTimer tick).isSet q = s.isSet q := by
  unfold State.pollTimer; split
  · cases q <;> simp [State.raiseLine]
  · rfl

@[simp] theorem State.pollTimer_false : s.pollTimer false = s := rfl

/-! ### the keyboard -/

@[simp] theorem State.pollKey_none : s.pollKey none = s := rfl
@[simp] theorem State.pollKey_flags (key : Option Byte) : (s.pollKey key).flags = s.flags := by
  cases key <;> rfl
@[simp] theorem State.pollKey_ip (key : Option Byte) : (s.pollKey key).ip = s.ip := by
  cases key <;> rfl
@[simp] theorem State.pollKey_servicing (key : Option Byte) : (s.pollKey key).servicing = s.servicing := by
  cases key <;> rfl
@[simp] theorem State.pollKey_run (key : Option Byte) : (s.pollKey key).run = s.run := by
  cases key <;> rfl
@[simp] theorem State.pollKey_out (key : Option Byte) : (s.pollKey key).out = s.out := by
  cases key <;> rfl
@[simp] theorem State.pollKey_loadNext (key : Option Byte) : (s.pollKey key).loadNext = s.loadNext := by
  cases key <;> rfl
@[simp] theorem State.pollKey_params (key : Option Byte) : (s.pollKey key).params = s.params := by
  cases key <;> rfl
@[simp] theorem State.pollKey_freeDraw (key : Option Byte) : (s.pollKey key).freeDraw = s.freeDraw := by
  cases key <;> rfl
@[simp] theorem State.pollKey_inputs (key : Option Byte) : (s.pollKey key).inputs = s.inputs := by
  cases key <;> rfl
@[simp] theorem State.pollKey_polls (key : Option Byte) : (s.pollKey key).polls = s.polls := by
  cases key <;> rfl

theorem State.pollKey_mem (key : Option Byte) :
    (s.pollKey key).mem = s.mem ∨ ∃ k, key = some k ∧ (s.pollKey key).mem = s.mem.write Config.keyAddr k := by
  cases key with
  | none => exact .inl rfl
  | some k => exact .inr ⟨k, rfl, rfl⟩

theorem State.reg_pollKey (key : Option Byte) (q : Reg) (h : q ≠ .r6) : (s.pollKey key).reg q = s.reg q := by
  cases key with
  | none => rfl
  | some k => simp [State.pollKey, State.raiseLine, h]

@[simp] theorem State.isSet_pollKey (key : Option Byte) (q : Reg) : (s.pollKey key).isSet q = s.isSet q := by
  cases key with
  | none => rfl
  | some k => cases q <;> simp [State.pollKey, State.raiseLine]

/-! ### the whole poll -/

/-- A draw that is fixed beforehand is the next one (log 4). -/
theorem State.nextDraw_fixed {d : Draw} {rest : List Draw} (h : s.inputs = d :: rest) : s.nextDraw = d := by
  simp only [State.nextDraw, h]

/-- Where none is fixed the next draw is the poll's free one (R240, log 4). -/
theorem State.nextDraw_free (h : s.inputs = []) :
    s.nextDraw = ⟨Config.hostTick s.polls, Config.hostKey s.polls⟩ := by
  simp only [State.nextDraw, h]

/-- A silent host's poll only uses up the draw (R241, R242). -/
theorem State.poll_silent (h : s.nextDraw = Draw.silent) : s.poll = s.useDraw := by
  simp only [State.poll, h, Draw.silent, State.pollTimer_false, State.pollKey_none]

@[simp] theorem State.poll_flags : s.poll.flags = s.flags := by simp [State.poll]
@[simp] theorem State.poll_ip : s.poll.ip = s.ip := by simp [State.poll]
@[simp] theorem State.poll_servicing : s.poll.servicing = s.servicing := by simp [State.poll]
@[simp] theorem State.poll_run : s.poll.run = s.run := by simp [State.poll]
@[simp] theorem State.poll_out : s.poll.out = s.out := by simp [State.poll]
@[simp] theorem State.poll_loadNext : s.poll.loadNext = s.loadNext := by simp [State.poll]
@[simp] theorem State.poll_params : s.poll.params = s.params := by simp [State.poll]
@[simp] theorem State.poll_freeDraw : s.poll.freeDraw = s.freeDraw := by simp [State.poll]
@[simp] theorem State.poll_inputs : s.poll.inputs = s.inputs.tail := by simp [State.poll]
@[simp] theorem State.poll_polls : s.poll.polls = s.polls + 1 := by simp [State.poll]

theorem State.reg_poll (q : Reg) (h : q ≠ .r6) : s.poll.reg q = s.reg q := by
  simp only [State.poll, State.reg_pollKey _ _ q h, State.reg_pollTimer _ _ q h, State.useDraw_reg]

@[simp] theorem State.isSet_poll (q : Reg) : s.poll.isSet q = s.isSet q := by
  simp only [State.poll, State.isSet_pollKey, State.isSet_pollTimer, State.useDraw_isSet]

/-- The poll writes no memory but the keyboard cell, and that only where a key came (R242). -/
theorem State.poll_mem :
    s.poll.mem = s.mem ∨ ∃ k, s.nextDraw.key = some k ∧ s.poll.mem = s.mem.write Config.keyAddr k := by
  simpa [State.poll] using State.pollKey_mem (s.useDraw.pollTimer s.nextDraw.tick) s.nextDraw.key

/-- With neither tick nor key the poll changes no register (R241, R242). -/
theorem State.reg_poll_silent (ht : s.nextDraw.tick = false) (hk : s.nextDraw.key = none) (q : Reg) :
    s.poll.reg q = s.reg q := by
  simp only [State.poll, ht, hk, State.pollTimer_false, State.pollKey_none, State.useDraw_reg]

/-- Whether the poll leaves the controller preempting (R231). -/
theorem State.poll_preempts_iff :
    s.poll.preempts = true ↔ (s.poll.reg .r5 &&& s.poll.reg .r6) ≠ 0 ∧ s.servicing = false := by
  simp [State.preempts]

end Sys2Proof.Machine
end

