-- ==== Sys2Proof/Laws/Inv.lean ====
section
/-! SUPPORT. That the operations keep the invariant of the machine, each on its own. -/

namespace Sys2Proof.Machine

variable {s t : State}

theorem State.Inv.setReg (h : s.Inv) (r : Reg) (v : Byte) : (s.setReg r v).Inv :=
  ⟨h.memWf, h.ipLow, h.ipHigh, h.loadNext⟩

theorem State.Inv.setIp (h : s.Inv) {i : Int} (hl : -1 ≤ i) (hh : i ≤ 255) : (s.setIp i).Inv :=
  ⟨h.memWf, hl, hh, h.loadNext⟩

theorem State.Inv.jumpTo (h : s.Inv) {k : Nat} (hk : k ≤ 255) : (s.jumpTo k).Inv :=
  h.setIp (by omega) (by omega)

theorem State.Inv.setFlags (h : s.Inv) (f : Flags) : (s.setFlags f).Inv :=
  ⟨h.memWf, h.ipLow, h.ipHigh, h.loadNext⟩

theorem State.Inv.setServicing (h : s.Inv) (b : Bool) : (s.setServicing b).Inv :=
  ⟨h.memWf, h.ipLow, h.ipHigh, h.loadNext⟩

theorem State.Inv.setRun (h : s.Inv) (r : RunState) : (s.setRun r).Inv :=
  ⟨h.memWf, h.ipLow, h.ipHigh, h.loadNext⟩

theorem State.Inv.emit (h : s.Inv) (e : Event) : (s.emit e).Inv :=
  ⟨h.memWf, h.ipLow, h.ipHigh, h.loadNext⟩

theorem State.Inv.writeByte (h : s.Inv) {a : Nat} (ha : a < Config.memSize) (v : Byte) :
    (s.writeByte a v).Inv :=
  ⟨Memory.write_wf h.memWf ha v, h.ipLow, h.ipHigh, h.loadNext⟩

/-- The free values of a faulted state are a memory of canonical form and an `ip` in its range (R222, R27). -/
theorem State.Inv.raise (h : s.Inv) (c : Condition) : (s.raise c).Inv := by
  refine ⟨(Memory.ofFn_wf _ : (Memory.unspecified s.freeDraw).wf), ?_, ?_, h.loadNext⟩ <;>
  · have := (Config.unspecifiedIp s.freeDraw).isLt
    simp only [State.raise]
    omega

theorem State.Inv.poll (h : s.Inv) : s.poll.Inv := by
  refine ⟨?_, by simp [h.ipLow], by simp [h.ipHigh], by simp; exact h.loadNext⟩
  rcases s.poll_mem with e | ⟨k, -, e⟩
  · rw [e]; exact h.memWf
  · rw [e]; exact Memory.write_wf h.memWf (by decide) k

theorem State.Inv.push {v : Byte} (h : s.Inv) (hp : s.push v = .ok t) : t.Inv := by
  have p := Pushed.of_push h.memWf hp
  exact ⟨p.memWf, by rw [p.kept.ip]; exact h.ipLow, by rw [p.kept.ip]; exact h.ipHigh,
    by rw [p.kept.loadNext]; exact h.loadNext⟩

theorem State.Inv.pop {v : Byte} (h : s.Inv) (hp : s.pop = .ok (v, t)) : t.Inv := by
  obtain ⟨-, -, -, rfl⟩ := State.pop_cases hp
  exact h.setReg _ _

end Sys2Proof.Machine
end

