-- ==== Sys2Proof/Laws/PerInstr.lean ====
section
/-! SUPPORT. The statements made per instruction: every instruction's encoding is well formed and as long as
its format says (30_encoding.md R81, R85). One lemma per constructor. -/

namespace Sys2Proof.Laws.Encoding

/-- The bytes of `i` are one whole instruction, as many as its format says. -/
def Statement (i : Instr) : Prop := wellFormed (encode i) = true ∧ (encode i).length = i.length

theorem nop : Statement .nop := ⟨rfl, rfl⟩
theorem hlt : Statement .hlt := ⟨rfl, rfl⟩
theorem ret : Statement .ret := ⟨rfl, rfl⟩
theorem iret : Statement .iret := ⟨rfl, rfl⟩
theorem push (r : Reg) : Statement (.push r) := ⟨isRegisterByte_toByte r, rfl⟩
theorem pop (r : Reg) : Statement (.pop r) := ⟨isRegisterByte_toByte r, rfl⟩
theorem prn (r : Reg) : Statement (.prn r) := ⟨isRegisterByte_toByte r, rfl⟩
theorem pra (r : Reg) : Statement (.pra r) := ⟨isRegisterByte_toByte r, rfl⟩
theorem call (r : Reg) : Statement (.call r) := ⟨isRegisterByte_toByte r, rfl⟩
theorem int (r : Reg) : Statement (.int r) := ⟨isRegisterByte_toByte r, rfl⟩
theorem jmp (r : Reg) : Statement (.jmp r) := ⟨isRegisterByte_toByte r, rfl⟩
theorem jeq (r : Reg) : Statement (.jeq r) := ⟨isRegisterByte_toByte r, rfl⟩
theorem jne (r : Reg) : Statement (.jne r) := ⟨isRegisterByte_toByte r, rfl⟩
theorem jgt (r : Reg) : Statement (.jgt r) := ⟨isRegisterByte_toByte r, rfl⟩
theorem jlt (r : Reg) : Statement (.jlt r) := ⟨isRegisterByte_toByte r, rfl⟩
theorem jle (r : Reg) : Statement (.jle r) := ⟨isRegisterByte_toByte r, rfl⟩
theorem jge (r : Reg) : Statement (.jge r) := ⟨isRegisterByte_toByte r, rfl⟩
theorem inc (r : Reg) : Statement (.inc r) := ⟨isRegisterByte_toByte r, rfl⟩
theorem dec (r : Reg) : Statement (.dec r) := ⟨isRegisterByte_toByte r, rfl⟩
theorem not (r : Reg) : Statement (.not r) := ⟨isRegisterByte_toByte r, rfl⟩
theorem ldi (r : Reg) (i : Byte) : Statement (.ldi r i) := ⟨isRegisterByte_toByte r, rfl⟩
theorem addi (r : Reg) (i : Byte) : Statement (.addi r i) := ⟨isRegisterByte_toByte r, rfl⟩

/-- Two register bytes are both in range (R82). -/
theorem two (a b : Reg) : (isRegisterByte a.toByte && isRegisterByte b.toByte) = true := by
  simp [isRegisterByte_toByte]

theorem ld (a b : Reg) : Statement (.ld a b) := ⟨two a b, rfl⟩
theorem st (a b : Reg) : Statement (.st a b) := ⟨two a b, rfl⟩
theorem add (a b : Reg) : Statement (.add a b) := ⟨two a b, rfl⟩
theorem sub (a b : Reg) : Statement (.sub a b) := ⟨two a b, rfl⟩
theorem mul (a b : Reg) : Statement (.mul a b) := ⟨two a b, rfl⟩
theorem div (a b : Reg) : Statement (.div a b) := ⟨two a b, rfl⟩
theorem mod (a b : Reg) : Statement (.mod a b) := ⟨two a b, rfl⟩
theorem cmp (a b : Reg) : Statement (.cmp a b) := ⟨two a b, rfl⟩
theorem and (a b : Reg) : Statement (.and a b) := ⟨two a b, rfl⟩
theorem or (a b : Reg) : Statement (.or a b) := ⟨two a b, rfl⟩
theorem xor (a b : Reg) : Statement (.xor a b) := ⟨two a b, rfl⟩
theorem shl (a b : Reg) : Statement (.shl a b) := ⟨two a b, rfl⟩
theorem shr (a b : Reg) : Statement (.shr a b) := ⟨two a b, rfl⟩

end Sys2Proof.Laws.Encoding
end

