-- ==== Sys2Proof/Tests/Slice0.lean ====
section
/-! SUPPORT. Tests: the well-formedness smoke, the decoding of every constructor from a word written out from the
encoding tables (30_encoding.md R81, R85), single steps with the results of 95_test_vectors.md, and for every
statement with hypotheses a concrete state and operands that meet them. -/

namespace Sys2Proof.Tests

open Sys2Proof.Machine Sys2Proof.Claims

/-! ### Small states -/

/-- A running state with every register set, at `ip = 0x10`, before a silent poll. -/
def ready : State :=
  { State.reset with
    regs := { r0 := ⟨0x05, true⟩, r1 := ⟨0x0A, true⟩, r2 := ⟨0xF1, true⟩, r3 := ⟨0x19, true⟩,
              r4 := ⟨0x20, true⟩, im := 0x00, is := 0x00, sp := 0xFF }
    ip := 0x10
    inputs := [Draw.silent] }

/-- `ready` with R0 and R1 as given. -/
def pair (a b : Byte) : State := (ready.setReg .r0 a).setReg .r1 b

/-- `s` with bytes where the next fetch reads, and a silent poll before it. -/
def code (s : State) (bytes : List Byte) : State :=
  { s.storeBytes (s.ip + 1).toNat bytes with inputs := Draw.silent :: s.inputs }

/-- The next state of an outcome, if it has one. -/
def nextOf : Host.Outcome State Fault Refusal → Option State
  | .next t => some t
  | .fault _ => none
  | .refused _ => none

/-- The state after one step that starts with `bytes` to fetch. -/
def ran (s : State) (bytes : List Byte) : Option State := nextOf (step (code s bytes))

/-- How the run stands after that step. -/
def runAfter (s : State) (bytes : List Byte) : Option RunState := (ran s bytes).map (·.run)

/-- A register after that step. -/
def regAfter (s : State) (bytes : List Byte) (r : Reg) : Option Byte := (ran s bytes).map (·.reg r)

/-- `ip` after that step. -/
def ipAfter (s : State) (bytes : List Byte) : Option Int := (ran s bytes).map (·.ip)

/-! ### Well-formedness: one ill-formed byte string per check (R81, R82, R87) -/

theorem test_ill_formed_empty : wellFormed [] = false := by decide
theorem test_ill_formed_illegal_opcode : wellFormed [0x02] = false := by decide
theorem test_ill_formed_illegal_opcode_above : wellFormed [0xB1, 0x00, 0x00] = false := by decide
theorem test_ill_formed_f0_extra_byte : wellFormed [0x00, 0x00] = false := by decide
theorem test_ill_formed_r_missing_operand : wellFormed [0x45] = false := by decide
theorem test_ill_formed_r_register_above_7 : wellFormed [0x45, 0x08] = false := by decide
theorem test_ill_formed_r_extra_byte : wellFormed [0x45, 0x00, 0x00] = false := by decide
theorem test_ill_formed_rr_missing_operand : wellFormed [0xA0, 0x00] = false := by decide
theorem test_ill_formed_rr_first_register_above_7 : wellFormed [0xA0, 0x08, 0x00] = false := by decide
theorem test_ill_formed_rr_second_register_above_7 : wellFormed [0xA0, 0x00, 0x08] = false := by decide
theorem test_ill_formed_rr_extra_byte : wellFormed [0xA0, 0x00, 0x00, 0x00] = false := by decide
theorem test_ill_formed_ri_missing_literal : wellFormed [0x82, 0x00] = false := by decide
theorem test_ill_formed_ri_register_above_7 : wellFormed [0x82, 0x08, 0x00] = false := by decide
theorem test_ill_formed_ri_extra_byte : wellFormed [0x82, 0x00, 0x00, 0x00] = false := by decide
theorem test_well_formed_each_format : wellFormed [0x01] = true ∧ wellFormed [0x45, 0x07] = true ∧
    wellFormed [0xA0, 0x07, 0x00] = true ∧ wellFormed [0xB0, 0x00, 0xFF] = true := by decide

/-! ### Decoding: every constructor from a word written out from R81 and R85 -/

theorem test_decode_nop : decode [0b00000000] = .ok .nop [] := by decide
theorem test_decode_hlt : decode [0b00000001] = .ok .hlt [] := by decide
theorem test_decode_ret : decode [0b00010001] = .ok .ret [] := by decide
theorem test_decode_iret : decode [0b00010011] = .ok .iret [] := by decide
theorem test_decode_push : decode [0b01000101, 0b00000101] = .ok (.push .r5) [] := by decide
theorem test_decode_pop : decode [0b01000110, 0b00000000] = .ok (.pop .r0) [] := by decide
theorem test_decode_prn : decode [0b01000111, 0b00000011] = .ok (.prn .r3) [] := by decide
theorem test_decode_pra : decode [0b01001000, 0b00000110] = .ok (.pra .r6) [] := by decide
theorem test_decode_call : decode [0b01010000, 0b00000001] = .ok (.call .r1) [] := by decide
theorem test_decode_int : decode [0b01010010, 0b00000100] = .ok (.int .r4) [] := by decide
theorem test_decode_jmp : decode [0b01010100, 0b00000111] = .ok (.jmp .r7) [] := by decide
theorem test_decode_jeq : decode [0b01010101, 0b00000010] = .ok (.jeq .r2) [] := by decide
theorem test_decode_jne : decode [0b01010110, 0b00000101] = .ok (.jne .r5) [] := by decide
theorem test_decode_jgt : decode [0b01010111, 0b00000000] = .ok (.jgt .r0) [] := by decide
theorem test_decode_jlt : decode [0b01011000, 0b00000011] = .ok (.jlt .r3) [] := by decide
theorem test_decode_jle : decode [0b01011001, 0b00000110] = .ok (.jle .r6) [] := by decide
theorem test_decode_jge : decode [0b01011010, 0b00000001] = .ok (.jge .r1) [] := by decide
theorem test_decode_ldi : decode [0b10000010, 0b00000100, 0b11110110] = .ok (.ldi .r4 0b11110110) [] := by decide
theorem test_decode_ld : decode [0b10000011, 0b00000111, 0b00000100] = .ok (.ld .r7 .r4) [] := by decide
theorem test_decode_st : decode [0b10000100, 0b00000010, 0b00000001] = .ok (.st .r2 .r1) [] := by decide
theorem test_decode_add : decode [0b10100000, 0b00000101, 0b00000110] = .ok (.add .r5 .r6) [] := by decide
theorem test_decode_sub : decode [0b10100001, 0b00000000, 0b00000011] = .ok (.sub .r0 .r3) [] := by decide
theorem test_decode_mul : decode [0b10100010, 0b00000011, 0b00000000] = .ok (.mul .r3 .r0) [] := by decide
theorem test_decode_div : decode [0b10100011, 0b00000110, 0b00000101] = .ok (.div .r6 .r5) [] := by decide
theorem test_decode_mod : decode [0b10100100, 0b00000001, 0b00000010] = .ok (.mod .r1 .r2) [] := by decide
theorem test_decode_inc : decode [0b10100101, 0b00000100] = .ok (.inc .r4) [] := by decide
theorem test_decode_dec : decode [0b10100110, 0b00000111] = .ok (.dec .r7) [] := by decide
theorem test_decode_cmp : decode [0b10100111, 0b00000010, 0b00000001] = .ok (.cmp .r2 .r1) [] := by decide
theorem test_decode_and : decode [0b10101000, 0b00000101, 0b00000110] = .ok (.and .r5 .r6) [] := by decide
theorem test_decode_not : decode [0b10101001, 0b00000000] = .ok (.not .r0) [] := by decide
theorem test_decode_or : decode [0b10101010, 0b00000011, 0b00000000] = .ok (.or .r3 .r0) [] := by decide
theorem test_decode_xor : decode [0b10101011, 0b00000110, 0b00000101] = .ok (.xor .r6 .r5) [] := by decide
theorem test_decode_shl : decode [0b10101100, 0b00000001, 0b00000010] = .ok (.shl .r1 .r2) [] := by decide
theorem test_decode_shr : decode [0b10101101, 0b00000100, 0b00000111] = .ok (.shr .r4 .r7) [] := by decide
theorem test_decode_addi : decode [0b10110000, 0b00000111, 0b01101011] = .ok (.addi .r7 0b01101011) [] := by decide
theorem test_decode_rejects : decode [0x65] = .unsupportedInstruction 0x65 ∧
    decode [0x45, 0x08] = .registerIndexOutOfRange 0x08 ∧ decode [0xA0, 0x00] = .truncated := by decide
theorem test_decode_leaves_the_rest : decode [0x00, 0x01, 0x02] = .ok .nop [0x01, 0x02] := by decide
theorem test_table_word_first_byte_is_low : decodeTableWord 24 0x0100A0 = some (.add .r0 .r1) := by decide
theorem test_table_word_pads_with_zeros : decodeTableWord 8 0xFFA0 = some (.add .r0 .r0) := by decide
theorem test_table_word_rejects : decodeTableWord 8 0x02 = none := by decide
theorem test_with_fetch_word_runs_it :
    (nextOf (step (State.reset.withFetchWord 24 0x0A0182))).map (fun t => (t.reg .r1, t.isSet .r1, t.ip)) =
      some (0x0A, true, 2) := by decide

/-! ### Reset (R39, V-R4) -/

theorem test_reset_registers : ([Reg.r0, .r1, .r2, .r3, .r4].map State.reset.isSet = List.replicate 5 false) ∧
    State.reset.reg .r5 = 0x00 ∧ State.reset.reg .r6 = 0x00 ∧ State.reset.reg .r7 = 0xFF := by decide
theorem test_reset_rest : State.reset.flags = ⟨false, false, false⟩ ∧ State.reset.ip = -1 ∧
    State.reset.servicing = false ∧ State.reset.run = .running ∧ State.reset.out = [] ∧
    State.reset.mem = [] := by decide
theorem test_reset_value_policy : (State.resetUnder (.value 0x5A) .default).readReg .r3 = .ok 0x5A := by rfl

/-! ### Single steps (95_test_vectors.md) -/

/-- V-D1. -/
theorem test_nop :
    ran ready [0x00] = some (((code ready [0x00]).setIp 0x11).useDraw) := by decide
/-- V-D2. -/
theorem test_hlt :
    (ran ready [0x01]).map (fun t => (t.run, t.ip)) = some (.halted, 0x11) := by decide
/-- V-D3. -/
theorem test_illegal_opcode :
    runAfter ready [0x02] = some (.faulted (.unsupportedInstruction 0x02 0x11)) := by decide
/-- V-D7. -/
theorem test_register_byte_before_unset :
    runAfter { State.reset with ip := 0x10 } [0xA3, 0x00, 0x09] = some (.faulted (.registerIndexOutOfRange 0x09)) := by decide
/-- V-D8. -/
theorem test_unset_read :
    runAfter State.reset [0xA5, 0x00] = some (.faulted (.unsetRegister .r0)) := by decide
/-- V-D9. -/
theorem test_fetch_past_the_top :
    runAfter (ready.setIp 0xFF) [] = some (.faulted (.addressOutOfRange 256)) := by decide
/-- V-D11. -/
theorem test_literal_past_the_top :
    runAfter (ready.setIp 0xFD) [0x82, 0x00] = some (.faulted (.addressOutOfRange 256)) := by decide
/-- V-D12. -/
theorem test_servicing_blocks_entry :
    (ran (((ready.setReg .r5 0x04).setReg .r6 0x04).setServicing true) [0x00]).map (fun t => (t.ip, t.reg .r6)) =
      some (0x11, 0x04) := by decide
/-- V-A2. -/
theorem test_add :
    regAfter (pair 0x7F 0x01) [0xA0, 0x00, 0x01] .r0 = some 0x80 := by decide
/-- V-A3. -/
theorem test_add_wraps :
    regAfter (pair 0xFF 0x01) [0xA0, 0x00, 0x01] .r0 = some 0x00 := by decide
/-- V-A4. -/
theorem test_sub :
    regAfter (pair 0x03 0x05) [0xA1, 0x00, 0x01] .r0 = some 0xFE := by decide
/-- V-A5. -/
theorem test_sub_sign :
    regAfter (pair 0x80 0x01) [0xA1, 0x00, 0x01] .r0 = some 0x7F := by decide
/-- V-A7. -/
theorem test_mul :
    regAfter (pair 0xFB 0x03) [0xA2, 0x00, 0x01] .r0 = some 0xF1 := by decide
/-- V-A9. -/
theorem test_mul_wraps :
    regAfter (pair 0x80 0xFF) [0xA2, 0x00, 0x01] .r0 = some 0x80 := by decide
/-- V-A11. -/
theorem test_div_floor :
    regAfter (pair 0xF9 0x02) [0xA3, 0x00, 0x01] .r0 = some 0xFC := by decide
/-- V-A15. -/
theorem test_mod_floor :
    regAfter (pair 0xF9 0x02) [0xA4, 0x00, 0x01] .r0 = some 0x01 := by decide
/-- V-A25. -/
theorem test_inc :
    regAfter (pair 0x7F 0x00) [0xA5, 0x00] .r0 = some 0x80 := by decide
/-- V-A26. -/
theorem test_inc_wraps :
    regAfter (pair 0xFF 0x00) [0xA5, 0x00] .r0 = some 0x00 := by decide
/-- V-A27. -/
theorem test_dec :
    regAfter (pair 0x00 0x00) [0xA6, 0x00] .r0 = some 0xFF := by decide
/-- V-A28. -/
theorem test_dec_sign :
    regAfter (pair 0x80 0x00) [0xA6, 0x00] .r0 = some 0x7F := by decide
/-- V-A29. -/
theorem test_and :
    regAfter (pair 0xF0 0x3C) [0xA8, 0x00, 0x01] .r0 = some 0x30 := by decide
/-- V-A30. -/
theorem test_not :
    regAfter (pair 0x0F 0x00) [0xA9, 0x00] .r0 = some 0xF0 := by decide
/-- V-A32. -/
theorem test_or :
    regAfter (pair 0xF0 0x0F) [0xAA, 0x00, 0x01] .r0 = some 0xFF := by decide
/-- V-A33. -/
theorem test_xor :
    regAfter (pair 0xFF 0x0F) [0xAB, 0x00, 0x01] .r0 = some 0xF0 := by decide
/-- V-A34. -/
theorem test_xor_self :
    regAfter (pair 0x5A 0x00) [0xAB, 0x00, 0x00] .r0 = some 0x00 := by decide
/-- V-A35. -/
theorem test_shl :
    regAfter (pair 0x81 0x01) [0xAC, 0x00, 0x01] .r0 = some 0x02 := by decide
/-- V-A38. -/
theorem test_shl_count_255 :
    regAfter (pair 0xFF 0xFF) [0xAC, 0x00, 0x01] .r0 = some 0x00 := by decide
/-- V-A39. -/
theorem test_shr :
    regAfter (pair 0x80 0x01) [0xAD, 0x00, 0x01] .r0 = some 0xC0 := by decide
/-- V-A43. -/
theorem test_shr_count_8 :
    regAfter (pair 0x80 0x08) [0xAD, 0x00, 0x01] .r0 = some 0xFF := by decide
/-- V-A45. -/
theorem test_addi :
    regAfter (pair 0xFE 0x00) [0xB0, 0x00, 0x05] .r0 = some 0x03 := by decide
/-- V-A46. -/
theorem test_addi_ff :
    regAfter (pair 0x05 0x00) [0xB0, 0x00, 0xFF] .r0 = some 0x04 := by decide
/-- V-A11 under `Trunc`. -/
theorem test_div_trunc :
    regAfter { pair 0xF9 0x02 with params := ⟨.trunc, .lastByte⟩ } [0xA3, 0x00, 0x01] .r0 = some 0xFD := by decide
/-- V-A17 under `Trunc`. -/
theorem test_mod_trunc :
    regAfter { pair 0x7F 0x80 with params := ⟨.trunc, .lastByte⟩ } [0xA4, 0x00, 0x01] .r0 = some 0x7F := by decide
/-- V-A14. -/
theorem test_div_by_zero :
    runAfter (pair 0x05 0x00) [0xA3, 0x00, 0x01] = some (.faulted (.divisionByZero .r0 .r1)) := by decide
/-- V-A21: E, L, G. -/
theorem test_cmp_signed :
    (ran (pair 0xFF 0x01) [0xA7, 0x00, 0x01]).map (·.flags) = some ⟨false, true, false⟩ := by decide
/-- V-A22: E, L, G. -/
theorem test_cmp_greater :
    (ran (pair 0x01 0xFF) [0xA7, 0x00, 0x01]).map (·.flags) = some ⟨false, false, true⟩ := by decide
/-- V-S1. -/
theorem test_ldi :
    regAfter State.reset [0x82, 0x01, 0x0A] .r1 = some 0x0A := by decide
/-- V-S2. -/
theorem test_ldi_moves_sp :
    regAfter ready [0x82, 0x07, 0x10] .r7 = some 0x10 := by decide
/-- V-S3. -/
theorem test_ld :
    regAfter ((ready.setReg .r0 0xC8).writeByte 0xC8 0xFB) [0x83, 0x02, 0x00] .r2 = some 0xFB := by decide
/-- V-S4. -/
theorem test_st :
    (ran (pair 0xC8 0xFB) [0x84, 0x00, 0x01]).map (·.readByte 0xC8) = some 0xFB := by decide
/-- V-S14. -/
theorem test_st_negative_alias :
    (ran (pair 0xFF 0x33) [0x84, 0x00, 0x01]).map (·.readByte 0xFF) = some 0x33 := by decide
/-- V-S7. -/
theorem test_push :
    (ran ready [0x45, 0x02]).map (fun t => (t.readByte 0xFF, t.reg .r7)) = some (0xF1, 0xFE) := by decide
/-- V-S11. -/
theorem test_push_overflow :
    runAfter (ready.setReg .r7 0xE0) [0x45, 0x00] = some (.faulted (.stackOverflow 0xE0)) := by decide
/-- V-S8. -/
theorem test_pop :
    (ran ((ready.setReg .r7 0xFE).writeByte 0xFF 0xF1) [0x46, 0x04]).map (fun t => (t.reg .r4, t.reg .r7)) = some (0xF1, 0xFF) := by decide
/-- V-S12. -/
theorem test_pop_below_the_region :
    runAfter (ready.setReg .r7 0x10) [0x46, 0x00] = some (.faulted (.stackOverflow 0x10)) := by decide
/-- V-C1. -/
theorem test_jmp :
    ipAfter ready [0x54, 0x04] = some 0x1F := by decide
/-- V-C19. -/
theorem test_jmp_to_0 :
    ipAfter (ready.setReg .r0 0x00) [0x54, 0x00] = some (-1) := by decide
/-- V-C2. -/
theorem test_jeq_taken :
    ipAfter ((ready.setIp 0x0F).setFlags ⟨true, false, false⟩) [0x55, 0x04] = some 0x1F := by decide
/-- V-C3. -/
theorem test_jeq_not :
    ipAfter ((ready.setIp 0x0F).setFlags ⟨false, true, false⟩) [0x55, 0x04] = some 0x11 := by decide
/-- V-C4. -/
theorem test_jne_taken :
    ipAfter ((ready.setIp 0x0F).setFlags ⟨false, false, false⟩) [0x56, 0x04] = some 0x1F := by decide
/-- V-C5. -/
theorem test_jne_not :
    ipAfter ((ready.setIp 0x0F).setFlags ⟨true, false, false⟩) [0x56, 0x04] = some 0x11 := by decide
/-- V-C6. -/
theorem test_jgt_taken :
    ipAfter ((ready.setIp 0x0F).setFlags ⟨false, false, true⟩) [0x57, 0x04] = some 0x1F := by decide
/-- V-C7. -/
theorem test_jgt_not :
    ipAfter ((ready.setIp 0x0F).setFlags ⟨true, false, false⟩) [0x57, 0x04] = some 0x11 := by decide
/-- V-C8. -/
theorem test_jlt_taken :
    ipAfter ((ready.setIp 0x0F).setFlags ⟨false, true, false⟩) [0x58, 0x04] = some 0x1F := by decide
/-- V-C9. -/
theorem test_jlt_not :
    ipAfter ((ready.setIp 0x0F).setFlags ⟨false, false, true⟩) [0x58, 0x04] = some 0x11 := by decide
/-- V-C10. -/
theorem test_jle_taken :
    ipAfter ((ready.setIp 0x0F).setFlags ⟨true, false, false⟩) [0x59, 0x04] = some 0x1F := by decide
/-- V-C12. -/
theorem test_jle_not_g_is_not_enough :
    ipAfter ((ready.setIp 0x0F).setFlags ⟨false, false, false⟩) [0x59, 0x04] = some 0x11 := by decide
/-- V-C13. -/
theorem test_jge_taken :
    ipAfter ((ready.setIp 0x0F).setFlags ⟨false, false, true⟩) [0x5A, 0x04] = some 0x1F := by decide
/-- V-C15. -/
theorem test_jge_not :
    ipAfter ((ready.setIp 0x0F).setFlags ⟨false, false, false⟩) [0x5A, 0x04] = some 0x11 := by decide
/-- V-C20. -/
theorem test_call :
    (ran (ready.setIp 0x0E) [0x50, 0x03]).map (fun t => (t.readByte 0xFF, t.reg .r7, t.ip)) = some (0x10, 0xFE, 0x18) := by decide
/-- V-C20 under `NextInstr`. -/
theorem test_call_next_instr :
    (ran { ready.setIp 0x0E with params := ⟨.floor, .nextInstr⟩ } [0x50, 0x03]).map (fun t => (t.readByte 0xFF, t.ip)) =
      some (0x11, 0x18) := by decide
/-- V-C21. -/
theorem test_ret :
    (ran ((ready.setReg .r7 0xFE).writeByte 0xFF 0x10) [0x11]).map (fun t => (t.reg .r7, t.ip)) = some (0xFF, 0x10) := by decide
/-- V-C21 under `NextInstr`. -/
theorem test_ret_next_instr :
    ipAfter { (ready.setReg .r7 0xFE).writeByte 0xFF 0x11 with params := ⟨.floor, .nextInstr⟩ } [0x11] = some 0x10 := by decide
/-- V-O2. -/
theorem test_prn :
    (ran (ready.setReg .r0 0xF1) [0x47, 0x00]).map (fun t => (t.out, t.out.map Event.text)) =
      some ([.num 0xF1], [['-', '1', '5']]) := by decide
/-- V-O3. -/
theorem test_prn_text_least :
    (Event.num 0x80).text = ['-', '1', '2', '8'] := by decide
/-- V-O6. -/
theorem test_pra :
    (ran (ready.setReg .r0 0x41) [0x48, 0x00]).map (fun t => (t.out, t.out.map Event.text)) = some ([.chr 0x41], [['A']]) := by decide
/-- V-O8. -/
theorem test_int :
    regAfter (ready.setReg .r0 0x02) [0x52, 0x00] .r6 = some 0x04 := by decide
/-- V-O11. -/
theorem test_int_line_8 :
    runAfter (ready.setReg .r0 0x08) [0x52, 0x00] = some (.faulted (.invalidInterruptLine 8)) := by decide
/-- The stack of V-O13: nine saved bytes at 0xF7 to 0xFF. -/
def savedStack (fl : Byte) : State :=
  ((ready.setReg .r7 0xF6).setServicing true).storeBytes 0xF7
    [0x00, 0x04, 0x00, 0x00, 0x00, 0x20, 0x02, fl, 0x19]
/-- V-O13. -/
theorem test_iret :
    (ran (savedStack 0x00) [0x13]).map (fun t => ([Reg.r0, .r1, .r2, .r3, .r4, .r5, .r6, .r7].map t.reg, t.ip, t.servicing)) =
      some ([0x02, 0x20, 0x00, 0x00, 0x00, 0x04, 0x00, 0xFF], 0x19, false) := by decide
/-- R33: G is bit 1 and L bit 2. -/
theorem test_iret_flags :
    (ran (savedStack 0x06) [0x13]).map (·.flags) = some ⟨false, true, true⟩ := by decide
/-- The state of V-I1: lines 1 and 2 pending and enabled, `ip = 0x40`. -/
def twoPending : State :=
  (((ready.setIp 0x40).setReg .r5 0x06).setReg .r6 0x06).writeByte 0xD9 0x80
/-- V-I1. -/
theorem test_entry_lowest_line :
    (nextOf (step twoPending)).map (fun t => (t.reg .r6, t.ip, t.servicing, t.reg .r7)) =
      some (0x04, 0x7F, true, 0xF6) := by decide
/-- V-I1, the saved bytes. -/
theorem test_entry_saves :
    (nextOf (step twoPending)).map (fun t => ([0xFF, 0xFE, 0xFD, 0xF8, 0xF7].map t.readByte)) =
      some [0x40, 0x00, 0x05, 0x06, 0x04] := by decide
/-- V-I4. -/
theorem test_key_then_entry :
    (nextOf (step { ((ready.setReg .r5 0x02).writeByte 0xD9 0x80) with inputs := [⟨false, some 0x41⟩] })).map
      (fun t => (t.readByte 0xD7, t.reg .r6, t.ip)) = some (0x41, 0x00, 0x7F) := by decide
/-- V-I5. -/
theorem test_tick_disabled :
    (nextOf (step { (code ready [0x00]) with inputs := [⟨true, none⟩] })).map (·.reg .r6) = some 0x00 := by decide
/-- V-I6 with the mask clear. -/
theorem test_tick_raises :
    (nextOf (step { (code (ready.writeByte 0xD8 0x40) [0x00]) with inputs := [⟨true, none⟩] })).map (·.reg .r6) = some 0x01 := by decide
/-- R262: a line becomes pending at the first poll after reset, and none is taken. -/
theorem test_first_poll_pends :
    (nextOf (step { State.reset with inputs := [⟨true, some 0x41⟩] })).map (fun t => (t.reg .r6, t.ip, t.servicing)) =
      some (0x02, 0, false) := by decide
/-- V-I8. -/
theorem test_entry_overflow :
    (nextOf (step (twoPending.setReg .r7 0xE8))).map (·.run) = some (.faulted (.stackOverflow 0xE0)) := by decide
/-- V-R2, V-R3: the last two bytes of the load. -/
theorem test_memory_full :
    (({ State.reset with loadNext := 0xD6 } : State).loadProgram []).run = .running ∧
      (({ State.reset with loadNext := 0xD6 } : State).loadProgram [0x00]).run = .faulted (.memoryFull 0xD7) := by decide
/-- V-I12. -/
theorem test_key_overwritten :
    ((ready.pollKey (some 0x41)).pollKey (some 0x42)).readByte 0xD7 = 0x42 := by decide

/-! ### Witnesses: a state and operands that meet each statement's hypotheses, clause by clause -/

/-- Read off an outcome that has a next state with a property. -/
theorem next_of {o : Host.Outcome State Fault Refusal} {p : State → Bool} (h : (nextOf o).any p = true) :
    ∃ t, o = .next t ∧ p t = true := by
  cases o with
  | next t => exact ⟨t, rfl, by simpa [nextOf] using h⟩
  | fault f => simp [nextOf] at h
  | refused r => simp [nextOf] at h

theorem safe_of_running {t : State} (h : t.run = .running) : t.Safe := fun c e => by rw [h] at e; cases e

theorem ready_inv : ready.Inv := ⟨by decide, by decide, by decide, by decide⟩

theorem ready_all_set : AllSet ready := fun r => by cases r <;> rfl

theorem witness_FetchEndsPastFF : (ready.setIp 255).ip = 255 := by decide

/-- `EncodedF0`: at both ends of the range of `ip`, for every opcode byte. -/
theorem witness_EncodedF0 : ∀ op : Byte, ∀ i ∈ [(-1 : Int), 254],
    -1 ≤ (code (ready.setIp i) [op]).ip ∧ (code (ready.setIp i) [op]).ip ≤ 254 ∧
      codeByte (code (ready.setIp i) [op]) 1 = op := by decide

/-- `EncodedR`: the end of memory, a register byte 8 and a register byte 7, for every opcode byte. -/
theorem witness_EncodedR : ∀ op : Byte,
    codeByte (code (ready.setIp 254) [op]) 1 = op ∧ (code (ready.setIp 254) [op]).ip = 254 ∧
    codeByte (code (ready.setIp 253) [op, 0x08]) 1 = op ∧ (code (ready.setIp 253) [op, 0x08]).ip ≤ 253 ∧
    7 < (codeByte (code (ready.setIp 253) [op, 0x08]) 2).toNat ∧
    codeByte (code (ready.setIp 253) [op, 0x07]) 1 = op ∧
    (codeByte (code (ready.setIp 253) [op, 0x07]) 2).toNat = Reg.r7.index := by decide

/-- `EncodedRR` and `EncodedRI`: their further clauses, at `ip = 253` and `ip = 252`. -/
theorem witness_EncodedRR_and_EncodedRI : ∀ op : Byte,
    codeByte (code (ready.setIp 253) [op, 0x07]) 1 = op ∧ (code (ready.setIp 253) [op, 0x07]).ip = 253 ∧
    (codeByte (code (ready.setIp 253) [op, 0x07]) 2).toNat = Reg.r7.index ∧
    codeByte (code (ready.setIp 252) [op, 0x07, 0x08]) 1 = op ∧
    (code (ready.setIp 252) [op, 0x07, 0x08]).ip ≤ 252 ∧
    (codeByte (code (ready.setIp 252) [op, 0x07, 0x08]) 2).toNat = Reg.r7.index ∧
    7 < (codeByte (code (ready.setIp 252) [op, 0x07, 0x08]) 3).toNat ∧
    codeByte (code (ready.setIp 252) [op, 0x07, 0x00]) 1 = op ∧
    (codeByte (code (ready.setIp 252) [op, 0x07, 0x00]) 2).toNat = Reg.r7.index ∧
    (codeByte (code (ready.setIp 252) [op, 0x07, 0x00]) 3).toNat = Reg.r0.index := by decide

theorem witness_DecodedBytesAreTheEncoding :
    decode [0xA0, 0x00, 0x01, 0xFF] = .ok (.add .r0 .r1) [0xFF] := by decide

theorem witness_IllegalOpcodeRaisesUnsupportedInstruction : ∀ i ∈ [(-1 : Int), 254],
    (code (ready.setIp i) [0xFF]).run = .running ∧ (code (ready.setIp i) [0xFF]).poll.preempts = false ∧
      -1 ≤ (code (ready.setIp i) [0xFF]).ip ∧ (code (ready.setIp i) [0xFF]).ip ≤ 254 ∧
      (codeByte (code (ready.setIp i) [0xFF]).poll 1).toNat ∉ legalOpcodes := by decide

theorem witness_FetchConsumesOneByteAndNeverWraps :
    (ready.setIp 255).ip + 1 > 255 ∧ (code (ready.setIp 254) [0x08]).ip + 1 ≤ 255 ∧
      7 < (codeByte (code (ready.setIp 254) [0x08]) 1).toNat ∧
      (codeByte (code (ready.setIp 254) [0x07]) 1).toNat = Reg.r7.index := by decide

theorem witness_FetchAgreesWithDecoder :
    -1 ≤ State.reset.ip ∧ State.reset.ip ≤ 255 ∧ -1 ≤ (ready.setIp 255).ip ∧ (ready.setIp 255).ip ≤ 255 := by
  decide

theorem witness_IterationEntersOrRunsNeverBoth :
    (twoPending.run = .running ∧ (twoPending.poll.reg .r5 &&& twoPending.poll.reg .r6) ≠ 0 ∧
      twoPending.servicing = false) ∧
    (ready.run = .running ∧ (ready.poll.reg .r5 &&& ready.poll.reg .r6) = 0) ∧
    ((twoPending.setServicing true).run = .running ∧ (twoPending.setServicing true).servicing = true) := by decide

theorem witness_StepRunsTheDecodedInstruction :
    (let s := code State.reset [0xA0, 0x00, 0x01]
     s.run = .running ∧ -1 ≤ s.ip ∧ s.ip ≤ 255 ∧ s.poll.preempts = false ∧
       decode s.poll.codeBytes = .ok (.add .r0 .r1) []) ∧
    (let s := code (ready.setIp 254) [0x01]
     s.run = .running ∧ -1 ≤ s.ip ∧ s.ip ≤ 255 ∧ s.poll.preempts = false ∧
       decode s.poll.codeBytes = .ok .hlt []) := by decide

theorem witness_StoppedMachineTakesNoStep :
    (ready.setRun .halted).run = .halted ∧
      (ready.setRun (.faulted (.stackUnderflow 0xFF))).run = .faulted (.stackUnderflow 0xFF) ∧
      (ran ready [0x00]).isSome = true := by decide

theorem witness_RunningMachineAlwaysSteps : State.reset.run = .running := by decide

/-- The shapes of the ALU: both registers set, the first unset, the second unset; DIV and MOD with a divisor
that is zero and one that is not, under both roundings. -/
theorem witness_register_shapes :
    (ready.isSet .r0 = true ∧ ready.isSet .r1 = true) ∧ State.reset.isSet .r0 = false ∧
      ((State.reset.setReg .r0 0x01).isSet .r0 = true ∧ (State.reset.setReg .r0 0x01).isSet .r1 = false) ∧
      (pair 0xF9 0x02).reg .r1 ≠ 0 ∧ (pair 0xF9 0x00).reg .r1 = 0 ∧
      (pair 0xF9 0x02).params.rounding = .floor ∧
      ({ pair 0xF9 0x02 with params := ⟨.trunc, .lastByte⟩ } : State).params.rounding = .trunc := by decide

/-- R130: -7 by 2 under each rounding. -/
theorem witness_IsQuotRem : IsQuotRem .floor (-7) 2 (-4) 1 ∧ IsQuotRem .trunc (-7) 2 (-3) (-1) := by
  unfold IsQuotRem; decide

theorem witness_StStoresAtTheAddressInA :
    ready.mem.wf ∧ ready.isSet .r0 = true ∧ ready.isSet .r1 = true := by decide

theorem witness_PushAndPopMoveSpAndCheckItsBounds :
    sp (ready.setReg .r7 0xE0) ≤ 0xE0 ∧ 0xE0 < sp (ready.setReg .r7 0xE1) ∧ (ready.setReg .r7 0xE1).mem.wf ∧
      sp ready = 0xFF ∧ sp (ready.setReg .r7 0xDF) < 0xE0 ∧ 0xE0 ≤ sp (ready.setReg .r7 0xE0) ∧
      sp (ready.setReg .r7 0xFE) < 0xFF ∧ 0xE0 ≤ sp (ready.setReg .r7 0xFE) := by decide

theorem witness_PushInstructionPushesItsRegister :
    ((ready.setReg .r7 0xE1).mem.wf ∧ (ready.setReg .r7 0xE1).isSet .r0 = true ∧
      0xE0 < sp (ready.setReg .r7 0xE1)) ∧ State.reset.isSet .r4 = false ∧
      ((ready.setReg .r7 0xE0).isSet .r0 = true ∧ sp (ready.setReg .r7 0xE0) ≤ 0xE0) := by decide

theorem witness_PopInstructionWritesItsRegisterLast :
    (0xE0 ≤ sp (ready.setReg .r7 0xE0) ∧ sp (ready.setReg .r7 0xE0) < 0xFF) ∧
      (0xE0 ≤ sp (ready.setReg .r7 0xFE) ∧ sp (ready.setReg .r7 0xFE) < 0xFF) ∧ sp ready = 0xFF ∧
      sp (ready.setReg .r7 0xDF) < 0xE0 := by decide

theorem witness_PushThenPopRestores : ready.mem.wf ∧ ready.isSet .r7 = true ∧ 0xE0 < sp ready := by decide

theorem witness_JmpContinuesAtItsRegister : ready.isSet .r7 = true ∧ State.reset.isSet .r4 = false := by decide

/-- Each jump's condition at both of its values. -/
theorem witness_ConditionalJumpsFollowTheirFlags :
    (ready.setFlags ⟨true, false, false⟩).flags.e = true ∧ ready.flags.e = false ∧
      (ready.setFlags ⟨false, false, true⟩).flags.g = true ∧ ready.flags.g = false ∧
      (ready.setFlags ⟨false, true, false⟩).flags.l = true ∧ ready.flags.l = false ∧
      ready.isSet .r4 = true ∧ State.reset.isSet .r4 = false ∧ State.reset.flags.e = false ∧
      (State.reset.setFlags ⟨true, true, true⟩).isSet .r4 = false := by decide

theorem witness_CallPushesItsLinkAndJumps :
    ((ready.setReg .r7 0xE1).mem.wf ∧ (ready.setReg .r7 0xE1).isSet .r7 = true ∧
      0xE0 < sp (ready.setReg .r7 0xE1)) ∧ State.reset.isSet .r0 = false ∧
      ((ready.setReg .r7 0xE0).isSet .r3 = true ∧ sp (ready.setReg .r7 0xE0) ≤ 0xE0) ∧
      ready.params.callLink = .lastByte ∧
      ({ ready with params := ⟨.floor, .nextInstr⟩ } : State).params.callLink = .nextInstr := by decide

theorem witness_RetContinuesAtThePoppedLink :
    (0xE0 ≤ sp (ready.setReg .r7 0xE0) ∧ sp (ready.setReg .r7 0xE0) < 0xFF) ∧
      (0xE0 ≤ sp (ready.setReg .r7 0xFE) ∧ sp (ready.setReg .r7 0xFE) < 0xFF) ∧ sp ready = 0xFF ∧
      sp (ready.setReg .r7 0xDF) < 0xE0 := by decide

/-- A call at the last place that has an instruction after it, and a subroutine that only returns. -/
theorem witness_CallThenRetReturnsAfterTheCall : ∃ s t u : State,
    s.mem.wf ∧ 0 ≤ s.ip ∧ s.ip ≤ 254 ∧ s.isSet .r3 = true ∧ 0xE0 < sp s ∧ exec (.call .r3) s = .next t ∧
      sp u = sp t ∧ u.readByte (sp s) = t.readByte (sp s) ∧ u.params = s.params :=
  ⟨ready.setIp 254, _, _, by decide, by decide, by decide, by decide, by decide, rfl, rfl, rfl, rfl⟩

theorem witness_PrnPraAppendTheirEvent : ready.isSet .r0 = true ∧ State.reset.isSet .r0 = false := by decide

theorem witness_IntSetsItsStatusBit :
    ((ready.setReg .r0 0x07).isSet .r0 = true ∧ ((ready.setReg .r0 0x07).reg .r0).toNat ≤ 7) ∧
      ((ready.setReg .r0 0x00).isSet .r0 = true ∧ ((ready.setReg .r0 0x00).reg .r0).toNat ≤ 7) ∧
      State.reset.isSet .r0 = false ∧
      ((ready.setReg .r0 0x08).isSet .r0 = true ∧ 7 < ((ready.setReg .r0 0x08).reg .r0).toNat) := by decide

theorem witness_IretRestoresTheSavedContext :
    (0xE0 ≤ sp (ready.setReg .r7 0xE0) ∧ sp (ready.setReg .r7 0xE0) ≤ 0xF6) ∧
      (0xE0 ≤ sp (ready.setReg .r7 0xF6) ∧ sp (ready.setReg .r7 0xF6) ≤ 0xF6) ∧
      0xF6 < sp (ready.setReg .r7 0xF7) ∧ sp (ready.setReg .r7 0xDF) < 0xE0 := by decide

theorem witness_TimerRaisesLineZeroWhileConfigured :
    (ready.writeByte 0xD8 0x40).readByte 0xD8 ≠ 0 ∧ ready.readByte 0xD8 = 0 := by decide

theorem witness_KeyIsStoredAndRaisesLineOne : ready.mem.wf := by decide

theorem witness_PollUsesUpItsDraw :
    State.reset.inputs = [] ∧ ({ ready with inputs := [⟨true, none⟩, Draw.silent] } : State).inputs =
      ⟨true, none⟩ :: [Draw.silent] ∧ ready.nextDraw.tick = false ∧ ready.nextDraw.key = none := by decide

theorem witness_LowestPendingEnabledLineIsTaken :
    lowestLine 0xFF 0x80 = some 7 ∧ lowestLine 0x81 0x81 = some 0 ∧ lowestLine 0x0F 0xF0 = none := by decide

theorem takesLine_of {s : State} {i : Nat} (h : i < 8 ∧ (s.reg .r5).getLsbD i = true ∧
    (s.reg .r6).getLsbD i = true ∧
    ∀ j ∈ List.range i, ¬ ((s.reg .r5).getLsbD j = true ∧ (s.reg .r6).getLsbD j = true)) : TakesLine s i :=
  ⟨h.1, h.2.1, h.2.2.1, fun j hj => h.2.2.2 j (List.mem_range.mpr hj)⟩

/-- Entry on the lowest and on the highest line, with just enough room. -/
theorem witness_InterruptEntrySavesTheContextAndVectors :
    ∀ p ∈ [((0x80 : Byte), 7), (0x81, 0)],
      TakesLine (((ready.setReg .r7 0xE9).setReg .r5 p.1).setReg .r6 0xFF) p.2 ∧
      (((ready.setReg .r7 0xE9).setReg .r5 p.1).setReg .r6 0xFF).mem.wf ∧
      AllSet (((ready.setReg .r7 0xE9).setReg .r5 p.1).setReg .r6 0xFF) ∧
      9 ≤ sp (((ready.setReg .r7 0xE9).setReg .r5 p.1).setReg .r6 0xFF) - 0xE0 := by
  intro p hp
  simp only [List.mem_cons, List.not_mem_nil, or_false] at hp
  rcases hp with rfl | rfl <;>
    exact ⟨takesLine_of (by decide), by decide, fun r => by cases r <;> rfl, by decide⟩

/-- A state after reset with line 2 pending and enabled, SP as given and only `rs` set. -/
def entering (spValue : Byte) (rs : List Reg) : State :=
  ((rs.foldl (fun s r => s.setReg r 0x00) (State.reset.setReg .r7 spValue)).setReg .r5 0x04).setReg .r6 0x04

/-- The clauses where entry raises: R0 unset after two pushes, R4 unset after six, no room at 0xDF, 0xE0 and
0xE1 whatever is set, and every register set with room for eight. -/
theorem witness_InterruptEntryRaises :
    (TakesLine (entering 0xE2 []) 2 ∧ (entering 0xE2 []).isSet .r0 = false ∧
      (∀ q : Reg, q.index < Reg.r0.index → (entering 0xE2 []).isSet q = true) ∧
      Reg.r0.index + 2 ≤ sp (entering 0xE2 []) - 0xE0) ∧
    (TakesLine (entering 0xE6 [.r0, .r1, .r2, .r3]) 2 ∧ (entering 0xE6 [.r0, .r1, .r2, .r3]).isSet .r4 = false ∧
      (∀ q : Reg, q.index < Reg.r4.index → (entering 0xE6 [.r0, .r1, .r2, .r3]).isSet q = true) ∧
      Reg.r4.index + 2 ≤ sp (entering 0xE6 [.r0, .r1, .r2, .r3]) - 0xE0) ∧
    (∀ v ∈ [(0xDF : Byte), 0xE0, 0xE1], TakesLine (entering v []) 2 ∧ sp (entering v []) - 0xE0 < 9 ∧
      ∀ r : Reg, r.index + 2 ≤ sp (entering v []) - 0xE0 → (entering v []).isSet r = true) ∧
    (TakesLine (entering 0xE8 [.r0, .r1, .r2, .r3, .r4]) 2 ∧
      sp (entering 0xE8 [.r0, .r1, .r2, .r3, .r4]) - 0xE0 < 9 ∧
      ∀ r : Reg, r.index + 2 ≤ sp (entering 0xE8 [.r0, .r1, .r2, .r3, .r4]) - 0xE0 →
        (entering 0xE8 [.r0, .r1, .r2, .r3, .r4]).isSet r = true) := by
  refine ⟨⟨takesLine_of (by decide), by decide, fun q => by cases q <;> decide, by decide⟩,
    ⟨takesLine_of (by decide), by decide, fun q => by cases q <;> decide, by decide⟩, fun v hv => ?_,
    takesLine_of (by decide), by decide, fun r => by cases r <;> decide⟩
  simp only [List.mem_cons, List.not_mem_nil, or_false] at hv
  rcases hv with rfl | rfl | rfl <;>
    exact ⟨takesLine_of (by decide), by decide, fun r => by cases r <;> decide⟩

/-- Entry on line 1 with SP at its lowest, and a handler that only returns. -/
theorem witness_InterruptRoundTripRestoresTheContext : ∃ s t u : State,
    s.Inv ∧ 0 ≤ s.ip ∧ AllSet s ∧ 0xE9 ≤ sp s ∧ TakesLine s 1 ∧
      settle s s.interruptEntry = .next t ∧ sp u = sp t ∧ ∀ k, sp t < k → k ≤ sp s → u.readByte k = t.readByte k :=
  ⟨twoPending.setReg .r7 0xE9, _, _, ⟨by decide, by decide, by decide, by decide⟩, by decide,
    fun r => by cases r <;> rfl, by decide, takesLine_of (by decide), rfl, rfl, fun _ _ _ => rfl⟩

theorem witness_ResetLeavesTheStatedValues :
    ([] : List Byte).length ≤ 214 ∧ Config.GprReset.unset = .unset ∧
      Config.GprReset.value 0x5A = .value 0x5A := by decide

theorem witness_RamLoadAppendsOrRaisesMemoryFull :
    (({ State.reset with loadNext := 0xD6 } : State).run = .running ∧
      ({ State.reset with loadNext := 0xD6 } : State).mem.wf ∧
      ({ State.reset with loadNext := 0xD6 } : State).loadNext < 0xD7) ∧
    (({ State.reset with loadNext := 0xD7 } : State).run = .running ∧
      0xD7 ≤ ({ State.reset with loadNext := 0xD7 } : State).loadNext) := by decide

/-- The longest program, and a first poll with a key and one with none. -/
theorem witness_FirstIterationAfterResetRunsTheProgram :
    (List.replicate 214 (0x00 : Byte)).length ≤ 214 ∧
      ({ State.reset.loadProgram [] with inputs := [⟨true, some 0x41⟩] } : State).nextDraw.key ≠ none ∧
      ({ State.reset.loadProgram [] with inputs := [⟨true, none⟩] } : State).nextDraw.key = none := by
  refine ⟨?_, by decide, by decide⟩
  simp only [List.length_replicate]
  decide

theorem witness_AtMost214ProgramBytesLoad :
    (List.replicate 214 (0x00 : Byte)).length ≤ 214 ∧ 214 < (List.replicate 215 (0x00 : Byte)).length := by
  simp only [List.length_replicate]
  decide

/-- A safe step that keeps the invariant's premise: NOP from `ready`. -/
theorem witness_StepKeepsTheInvariant : ∃ s t : State, s.Inv ∧ step s = .next t := by
  obtain ⟨t, h, -⟩ := next_of (o := step ready) (p := fun _ => true) (by decide)
  exact ⟨ready, t, ready_inv, h⟩

theorem witness_OnlyCmpAndIretWriteTheFlags :
    ∃ s t : State, step s = .next t ∧ t.Safe ∧ t.flags ≠ s.flags := by
  obtain ⟨t, h, p⟩ := next_of (o := step (code ready [0xA7, 0x00, 0x00]))
    (p := fun t => decide (t.run = .running ∧ t.flags ≠ ready.flags)) (by decide)
  exact ⟨_, t, h, safe_of_running (of_decide_eq_true p).1, (of_decide_eq_true p).2⟩

theorem witness_OnlyEntryAndIretWriteServicing :
    (∃ s t : State, step s = .next t ∧ t.Safe ∧ t.servicing ≠ s.servicing ∧ t.servicing = true) ∧
    (∃ s t : State, step s = .next t ∧ t.Safe ∧ t.servicing ≠ s.servicing ∧ t.servicing = false) := by
  constructor
  · obtain ⟨t, h, p⟩ := next_of (o := step twoPending)
      (p := fun t => decide (t.run = .running ∧ t.servicing ≠ twoPending.servicing ∧ t.servicing = true))
      (by decide)
    exact ⟨_, t, h, safe_of_running (of_decide_eq_true p).1, (of_decide_eq_true p).2⟩
  · obtain ⟨t, h, p⟩ := next_of (o := step (code (savedStack 0x00) [0x13]))
      (p := fun t => decide (t.run = .running ∧ t.servicing ≠ (code (savedStack 0x00) [0x13]).servicing ∧
        t.servicing = false)) (by decide)
    exact ⟨_, t, h, safe_of_running (of_decide_eq_true p).1, (of_decide_eq_true p).2⟩

theorem witness_OutputOnlyGrowsByPrnAndPra : ∃ s t : State, step s = .next t ∧ t.out ≠ s.out := by
  obtain ⟨t, h, p⟩ := next_of (o := step (code ready [0x47, 0x00]))
    (p := fun t => decide (t.out ≠ (code ready [0x47, 0x00]).out)) (by decide)
  exact ⟨_, t, h, of_decide_eq_true p⟩

theorem witness_OnlyHltHaltsTheRun : ∃ s t : State, step s = .next t ∧ t.run = .halted := by
  obtain ⟨t, h, p⟩ := next_of (o := step (code ready [0x01])) (p := fun t => decide (t.run = .halted)) (by decide)
  exact ⟨_, t, h, of_decide_eq_true p⟩

theorem witness_ValidBitsAreNeverCleared :
    ∃ s t : State, step s = .next t ∧ t.Safe ∧ s.isSet .r0 = true ∧ s.isSet .r1 = false := by
  obtain ⟨t, h, p⟩ := next_of (o := step (code (State.reset.setReg .r0 0x01) [0x82, 0x01, 0x02]))
    (p := fun t => decide (t.run = .running)) (by decide)
  exact ⟨_, t, h, safe_of_running (of_decide_eq_true p), by decide, by decide⟩

/-- An instruction that never transfers control, and a conditional jump that is not taken. -/
theorem witness_IpAdvancesByTheInstructionLength :
    (∃ s t u : State, RunsInstr s (.add .r0 .r1) u ∧ transfers u.flags (.add .r0 .r1) = false ∧
      step s = .next t ∧ t.Safe) ∧
    (∃ s t u : State, RunsInstr s (.jle .r0) u ∧ transfers u.flags (.jle .r0) = false ∧
      step s = .next t ∧ t.Safe) := by
  constructor
  · obtain ⟨t, h, p⟩ := next_of (o := step (code ready [0xA0, 0x00, 0x01]))
      (p := fun t => decide (t.run = .running)) (by decide)
    exact ⟨_, t, _, ⟨by decide, by decide, rfl⟩, rfl, h, safe_of_running (of_decide_eq_true p)⟩
  · obtain ⟨t, h, p⟩ := next_of (o := step (code ready [0x59, 0x00]))
      (p := fun t => decide (t.run = .running)) (by decide)
    exact ⟨_, t, _, ⟨by decide, by decide, rfl⟩, rfl, h, safe_of_running (of_decide_eq_true p)⟩

/-- A change by the keyboard, by entry, by ST and by PUSH. -/
theorem witness_MemoryChangesOnlyWhereAStoreGoes :
    ∀ p ∈ [({ ready with inputs := [⟨false, some 0x41⟩] }, 0xD7), (twoPending, 0xFF),
        (code (pair 0x80 0x33) [0x84, 0x00, 0x01], 0x80), (code ready [0x45, 0x02], 0xFF)],
      ∃ t : State, p.1.Inv ∧ step p.1 = .next t ∧ t.Safe ∧ t.readByte p.2 ≠ p.1.readByte p.2 := by
  intro p hp
  have inv : p.1.Inv := by
    simp only [List.mem_cons, List.not_mem_nil, or_false] at hp
    rcases hp with rfl | rfl | rfl | rfl <;> exact ⟨by decide, by decide, by decide, by decide⟩
  obtain ⟨t, h, q⟩ : ∃ t, step p.1 = .next t ∧
      decide (t.run = .running ∧ t.readByte p.2 ≠ p.1.readByte p.2) = true := by
    simp only [List.mem_cons, List.not_mem_nil, or_false] at hp
    rcases hp with rfl | rfl | rfl | rfl <;> exact next_of (by decide)
  exact ⟨t, inv, h, safe_of_running (of_decide_eq_true q).1, (of_decide_eq_true q).2⟩

/-- A change by an instruction's destination, by the poll and by entry. -/
theorem witness_RegistersChangeOnlyByTheirWriters :
    ∀ p ∈ [(code ready [0xA5, 0x00], Reg.r0), ({ ready with inputs := [⟨false, some 0x41⟩] }, Reg.r6),
        (twoPending, Reg.r7)],
      ∃ t : State, step p.1 = .next t ∧ t.Safe ∧ t.reg p.2 ≠ p.1.reg p.2 := by
  intro p hp
  obtain ⟨t, h, q⟩ : ∃ t, step p.1 = .next t ∧
      decide (t.run = .running ∧ t.reg p.2 ≠ p.1.reg p.2) = true := by
    simp only [List.mem_cons, List.not_mem_nil, or_false] at hp
    rcases hp with rfl | rfl | rfl <;> exact next_of (by decide)
  exact ⟨t, h, safe_of_running (of_decide_eq_true q).1, (of_decide_eq_true q).2⟩

/-- ST to the top of memory and a push at SP's highest and lowest place, each with a later state that reaches the
stored byte by a jump, and one whose very next fetch does. -/
theorem witness_StoredByteIsFetchedNext :
    (ready.Inv ∧ ready.isSet .r0 = true ∧ ready.isSet .r1 = true) ∧
    (∃ t u : State, exec (.st .r0 .r1) (pair 0xFF 0x01) = .next t ∧ u = t.jumpTo 0xFF ∧
      u.ip + 1 = (0xFF : Nat) ∧ u.readByte 0xFF = t.readByte 0xFF) ∧
    (∃ t : State, exec (.st .r0 .r1) ((pair 0x11 0x01)) = .next t ∧ t.ip + 1 = (0x11 : Nat)) ∧
    0xE0 < sp ready ∧ 0xE0 < sp (ready.setReg .r7 0xE1) ∧
    ((ready.pollKey (some 0x41)).jumpTo 0xD7).ip + 1 = (0xD7 : Nat) :=
  ⟨⟨ready_inv, by decide, by decide⟩, ⟨_, _, rfl, rfl, by decide, by decide⟩, ⟨_, rfl, by decide⟩, by decide,
    by decide, by decide⟩

end Sys2Proof.Tests
end

/-! SUPPORT. The bits of the composite flag byte (R33). -/

namespace Sys2Proof.Machine

theorem Flags.toByte_low_bits (f : Flags) :
    f.toByte.getLsbD 0 = f.e ∧ f.toByte.getLsbD 1 = f.g ∧ f.toByte.getLsbD 2 = f.l := by
  have all : ∀ e l g : Bool, let b := Flags.toByte ⟨e, l, g⟩
      b.getLsbD 0 = e ∧ b.getLsbD 1 = g ∧ b.getLsbD 2 = l := by decide
  exact all f.e f.l f.g

theorem Flags.toByte_toNat_lt (f : Flags) : f.toByte.toNat < 8 := by
  have he := f.e.toNat_le
  have hg := f.g.toNat_le
  have hl := f.l.toNat_le
  rw [Flags.toByte, BitVec.toNat_ofNat]
  omega

theorem Flags.toByte_high_bits (f : Flags) {k : Nat} (h : 3 ≤ k) : f.toByte.getLsbD k = false :=
  Nat.testBit_lt_two_pow <|
    calc f.toByte.toNat < 2 ^ 3 := f.toByte_toNat_lt
      _ ≤ 2 ^ k := Nat.pow_le_pow_right (by decide) h

@[simp] theorem Flags.ofByte_toByte (f : Flags) : Flags.ofByte f.toByte = f := by
  obtain ⟨he, hg, hl⟩ := f.toByte_low_bits
  rw [Flags.ofByte, he, hg, hl]

end Sys2Proof.Machine

/-! SUPPORT. The loader as one update of the state (R264): consecutive memory writes and the next free address
moved past them, everything else kept. -/

namespace Sys2Proof.Machine

/-- Consecutive byte writes from address `a` on. -/
def Memory.writeFrom (m : Memory) (a : Nat) : List Byte → Memory
  | [] => m
  | b :: rest => (m.write a b).writeFrom (a + 1) rest

theorem Memory.writeFrom_wf {m : Memory} (h : m.wf) {a : Nat} {bytes : List Byte}
    (ha : a + bytes.length ≤ Config.memSize) : (m.writeFrom a bytes).wf := by
  induction bytes generalizing m a with
  | nil => exact h
  | cons b rest ih =>
    rw [List.length_cons] at ha
    exact ih (Memory.write_wf h (by omega) b) (by omega)

/-- From address `a` on the bytes read as written, and no other byte changes (R66). -/
theorem Memory.read_writeFrom {m : Memory} (h : m.wf) {a : Nat} {bytes : List Byte}
    (ha : a + bytes.length ≤ Config.memSize) (k : Nat) :
    (m.writeFrom a bytes).read k = if a ≤ k then (bytes[k - a]?).getD (m.read k) else m.read k := by
  induction bytes generalizing m a with
  | nil => simp [Memory.writeFrom]
  | cons b rest ih =>
    rw [List.length_cons] at ha
    rw [Memory.writeFrom, ih (Memory.write_wf h (by omega) b) (by omega), Memory.read_write h]
    rcases Nat.lt_trichotomy k a with hk | rfl | hk
    · rw [if_neg (by omega), if_neg (by omega), if_neg (by omega)]
    · simp
    · have next : k - a = (k - (a + 1)) + 1 := by omega
      rw [if_pos (by omega), if_neg (by omega), if_pos (by omega), next, List.getElem?_cons_succ]

/-- Below `PROG_LIMIT` a running machine's loader appends the byte (R264). -/
theorem State.ramLoad_appends {s : State} (b : Byte) (hr : s.run = .running)
    (hn : s.loadNext < Config.progLimit) :
    s.ramLoad b = { s with mem := s.mem.write s.loadNext b, loadNext := s.loadNext + 1 } := by
  simp [State.ramLoad, hr, hn]

/-- Bytes that end at most at `PROG_LIMIT` are all appended (R264, R265). -/
theorem State.loadBytes_appends {s : State} {bytes : List Byte} (hr : s.run = .running)
    (hn : s.loadNext + bytes.length ≤ Config.progLimit) :
    s.loadBytes bytes =
      { s with mem := s.mem.writeFrom s.loadNext bytes, loadNext := s.loadNext + bytes.length } := by
  induction bytes generalizing s with
  | nil => rfl
  | cons b rest ih =>
    rw [List.length_cons] at hn
    rw [State.loadBytes, State.ramLoad_appends b hr (by omega), ih]
    case hr => exact hr
    case hn => simp only; omega
    simp only [Memory.writeFrom, List.length_cons, Nat.add_assoc, Nat.add_comm 1]

/-- A program of at most 214 bytes is loaded from 0x00 on, with its HLT, and nothing else changes (R261, R266). -/
theorem State.loadProgram_resetUnder (policy : Config.GprReset) (params : Config.Params) {program : List Byte}
    (h : program.length ≤ 214) :
    (State.resetUnder policy params).loadProgram program =
      { State.resetUnder policy params with
        mem := Memory.writeFrom [] 0x00 (program ++ [0x01]), loadNext := program.length + 1 } := by
  have fits : (State.resetUnder policy params).loadNext + (program ++ [0x01]).length ≤ Config.progLimit := by
    simp [State.resetUnder]
    omega
  rw [State.loadProgram, State.loadBytes_appends rfl fits]
  simp [State.resetUnder]

/-- What a program of at most 214 bytes leaves in memory: the loaded image, and 0x00 everywhere else (R39). -/
theorem State.readByte_loadProgram_resetUnder (policy : Config.GprReset) (params : Config.Params)
    {program : List Byte} (h : program.length ≤ 214) (k : Nat) :
    ((State.resetUnder policy params).loadProgram program).readByte k =
      ((program ++ [0x01])[k]?).getD 0x00 := by
  have fits : 0x00 + (program ++ [(0x01 : Byte)]).length ≤ Config.memSize := by
    simp
    omega
  rw [State.loadProgram_resetUnder policy params h]
  exact (Memory.read_writeFrom Memory.nil_wf fits k).trans (if_pos (Nat.zero_le k))

end Sys2Proof.Machine

/-! The statements about the state: the flag byte (R33) and the reset table (R39). -/

namespace Sys2Proof.Claims

open Sys2Proof.Machine

/-- Settles O45: the low bits by the eight flag values, the high ones because the byte is below 8. -/
theorem flagByteLayout : Obligations.FlagByteLayout := by
  refine ⟨fun f => ?_, fun _ => ⟨rfl, rfl, rfl⟩, Flags.ofByte_toByte⟩
  obtain ⟨he, hg, hl⟩ := f.toByte_low_bits
  exact ⟨he, hg, hl, fun _ => f.toByte_high_bits⟩

/-- R0 to R4 are each reset as `GPR_RESET_POLICY` says; the other rows are the fields of the reset state. -/
theorem resetRows_resetUnder (policy : Config.GprReset) (params : Config.Params) :
    ResetRows policy (State.resetUnder policy params) := by
  refine ⟨fun r hr => ?_, rfl, rfl, rfl, rfl, rfl, rfl, rfl, rfl⟩
  obtain ⟨valid, contents⟩ : (State.resetUnder policy params).isSet r = (Gpr.reset policy).valid ∧
      (State.resetUnder policy params).reg r = (Gpr.reset policy).contents := by
    simp only [List.mem_cons, List.not_mem_nil, or_false] at hr
    rcases hr with rfl | rfl | rfl | rfl | rfl <;> exact ⟨rfl, rfl⟩
  rw [valid, contents]
  refine ⟨fun hp => ?_, fun v hp => ?_⟩
  · rw [hp]; rfl
  · rw [hp]; exact ⟨rfl, rfl⟩

/-- Memory and the loader's next address are no rows of `ResetRows`. -/
theorem resetRows_of_mem_loadNext {policy : Config.GprReset} {s : State} (h : ResetRows policy s)
    (m : Memory) (n : Nat) : ResetRows policy { s with mem := m, loadNext := n } := h

/-- Settles O46: the load is an update of memory and the next free address alone. -/
theorem resetLeavesTheStatedValues : Obligations.ResetLeavesTheStatedValues := by
  intro policy params
  have rows := resetRows_resetUnder policy params
  refine ⟨rows, fun _ => rfl, fun program h => ⟨?_, ?_⟩, rfl⟩
  · rw [State.loadProgram_resetUnder policy params h]
    exact resetRows_of_mem_loadNext rows _ _
  · exact State.readByte_loadProgram_resetUnder policy params h

end Sys2Proof.Claims

/-! What one register write and one push do, in the statements' own predicates (R24, R62). -/

namespace Sys2Proof.Claims

open Sys2Proof.Machine

/-- A write of one register leaves every other register, memory and the other fields alone (R24). -/
theorem writesReg_setReg (s : State) (r : Reg) (v : Byte) : WritesReg r v s (s.setReg r v) := by
  have others : SameRegsBut [r] s (s.setReg r v) := fun q hq => by
    have hne : q ≠ r := by simpa using hq
    exact ⟨State.reg_setReg_other s v hne, State.isSet_setReg_other s v hne⟩
  exact ⟨State.reg_setReg_same s r v, State.isSet_setReg_same s r v, others, fun _ => rfl,
    rfl, rfl, rfl, rfl, rfl, rfl, rfl, rfl, rfl, rfl⟩

/-- A run of pushes keeps every register but SP. -/
theorem sameRegsBut_of_keptByPushes {s t : State} (h : KeptByPushes s t) : SameRegsBut [.r7] s t :=
  fun q hq => ⟨h.reg q (by simpa using hq), h.isSet q⟩

/-- A run of pushes keeps the loader's address, the parameters and the draws. -/
theorem sameSetting_of_keptByPushes {s t : State} (h : KeptByPushes s t) : SameSetting s t :=
  ⟨h.loadNext, h.params, h.inputs, h.polls, h.freeDraw⟩

/-- One pushed byte is written at SP, and SP is one lower (R62). -/
theorem pushesByte_of_pushed {v : Byte} {s t : State} (h : Pushed [v] s t) : PushesByte v s t := by
  have written : t.readByte (s.reg .r7).toNat = v := by simpa using (h.bytes 0 (by simp)).symm
  have lower : sp t + 1 = sp s := h.sp
  have others : SameBytesBut (· = (s.reg .r7).toNat) s t := fun a ha =>
    h.other a (by simp only [List.length_singleton]; omega)
  exact ⟨written, others, Nat.eq_sub_of_add_eq lower, sameRegsBut_of_keptByPushes h.kept, h.kept.flags,
    h.kept.servicing, h.kept.run, h.kept.out, sameSetting_of_keptByPushes h.kept⟩

end Sys2Proof.Claims

/-! The statement about the stack: `Push` and `Pop` at the bounds of its region (R62, R63). -/

namespace Sys2Proof.Claims

open Sys2Proof.Machine

/-- Settles O26: a push with room is one pushed byte, a pop within the region one write of SP; outside the
bounds each raises before it changes anything. -/
theorem pushAndPopMoveSpAndCheckItsBounds : Obligations.PushAndPopMoveSpAndCheckItsBounds := by
  intro s
  refine ⟨fun v => ⟨State.push_overflow v, fun hw room => ?_⟩,
    fun h => State.pop_underflow (Nat.le_of_eq h.symm), State.pop_overflow, fun low high => ?_⟩
  · obtain ⟨t, ht, pushed⟩ := State.push_next v hw room
    have lower : sp t + 1 = sp s := pushed.sp
    have top : sp s < 256 := (s.reg .r7).isLt
    exact ⟨t, ht, pushesByte_of_pushed pushed, pushed.kept.ip, by omega, by omega⟩
  · have raised : BitVec.ofInt 8 ((sp s : Int) + 1) = BitVec.ofNat 8 (sp s + 1) :=
      BitVec.ofInt_natCast 8 (sp s + 1)
    exact ⟨_, State.pop_ok low high, raised ▸ writesReg_setReg s .r7 _⟩

end Sys2Proof.Claims

/-! An iteration that runs an instruction, and the opcodes the dispatch table lists (R87, R100, R104). -/

namespace Sys2Proof.Machine

/-- With nothing to enter, a running machine's step is the fetch and execution of one instruction (R100, R104). -/
theorem step_of_not_preempts {s : State} (hr : s.run = .running) (hp : s.poll.preempts = false) :
    step s = runInstr s.poll := by
  simp [step, hr, iteration, hp]

/-- A fetch that raises ends the iteration in its fatal condition (R106). -/
theorem runInstr_of_fetchInstr_error {s : State} {c : Condition} (h : s.fetchInstr = .error c) :
    runInstr s = .next (s.raise c) := by
  simp [runInstr, h]

end Sys2Proof.Machine

/-! The statement about illegal opcodes (R87). -/

namespace Sys2Proof.Claims

open Sys2Proof.Machine

/-- The dispatch table lists exactly the opcodes of the opcode map (R85, R87). -/
theorem opcodeHandler_eq_none_iff {op : Byte} : opcodeHandler op = none ↔ op.toNat ∉ legalOpcodes := by
  revert op; decide

/-- The byte after the last fetched one, where it is no opcode, is what the fetch reports (R87, R106). -/
theorem fetchInstr_of_not_legal {s : State} (hi : s.ip ≤ 254) (illegal : (codeByte s 1).toNat ∉ legalOpcodes) :
    s.fetchInstr = .error (.unsupportedInstruction (codeByte s 1) (s.ip + 1)) :=
  State.fetchInstr_illegal hi (opcodeHandler_eq_none_iff.mpr illegal)

/-- Settles O5: the fetch raises at the opcode, before any operand byte, and a raise keeps the output history. -/
theorem illegalOpcodeRaisesUnsupportedInstruction : Obligations.IllegalOpcodeRaisesUnsupportedInstruction := by
  intro s hr hp _ hi illegal
  have fetch := fetchInstr_of_not_legal (s.poll_ip.le.trans hi) illegal
  rw [State.poll_ip] at fetch
  exact ⟨_, (step_of_not_preempts hr hp).trans (runInstr_of_fetchInstr_error fetch), rfl, s.poll_out⟩

end Sys2Proof.Claims

/-! The fetch of one byte past 0xFF, an iteration that enters an interrupt, and a machine that has stopped
(R29, R35, R100). -/

namespace Sys2Proof.Machine

/-- No fetch wraps: past 0xFF it reports the address it would have read (R29, R102). -/
theorem State.fetchByte_past {s : State} (h : s.ip + 1 > 255) :
    s.fetchByte = .error (.addressOutOfRange (s.ip + 1)) :=
  if_pos h

/-- The register byte is fetched before it is checked (R103). -/
theorem State.fetchReg_past {s : State} (h : s.ip + 1 > 255) :
    s.fetchReg = .error (.addressOutOfRange (s.ip + 1)) := by
  simp [State.fetchReg, State.fetchByte_past h, bind, Except.bind]

/-- Nothing is entered after the poll when no line is pending and enabled, or one is in service (R231). -/
theorem State.poll_preempts_eq_false_iff (s : State) :
    s.poll.preempts = false ↔ (s.poll.reg .r5 &&& s.poll.reg .r6) = 0 ∨ s.servicing = true := by
  rw [← Bool.not_eq_true, s.poll_preempts_iff, not_and_or, not_not, Bool.not_eq_false]

/-- Where the controller preempts, a running machine's step is interrupt entry alone (R100, R231). -/
theorem step_of_preempts {s : State} (hr : s.run = .running) (hp : s.poll.preempts = true) :
    step s = settle s.poll s.poll.interruptEntry := by
  simp [step, hr, iteration, hp]

/-- Only a running machine has a next state (R35, R101). -/
theorem step_ne_next_of_not_running {s : State} (stopped : s.run ≠ .running) (t : State) :
    step s ≠ .next t := fun next =>
  have ⟨running, _⟩ := step_cases next
  stopped running

end Sys2Proof.Machine

/-! The statements about the fetch, the iteration and the dispatcher's own two instructions
(R100, R102, R103, R110, R111). -/

namespace Sys2Proof.Claims

open Sys2Proof.Machine

/-- An opcode the table lists without operands is fetched alone (R81, R104). -/
theorem encodedF0_of_opcodeHandler {op : Byte} {i : Instr} (encoded : encode i = [op])
    (listed : opcodeHandler op = some (.f0 i)) : EncodedF0 op i := by
  refine ⟨encoded, fun _ => State.fetchInstr_end, fun s _ hi hop => ?_⟩
  have handler : opcodeHandler (codeByte s 1) = some (.f0 i) := hop ▸ listed
  exact State.fetchInstr_legal hi handler

/-- The run state is no register (R20, R35). -/
theorem sameRegsBut_setRun (s : State) (r : RunState) : SameRegsBut [] s (s.setRun r) :=
  fun _ _ => ⟨rfl, rfl⟩

/-- Settles O6: past 0xFF both raise on the byte itself, and below it the register byte decides. -/
theorem fetchConsumesOneByteAndNeverWraps : Obligations.FetchConsumesOneByteAndNeverWraps := by
  intro s
  refine ⟨fun past => ⟨State.fetchByte_past past, State.fetchReg_past past⟩, fun room => ?_,
    fun room bad => ?_, fun r room named => ?_⟩
  · exact State.fetchByte_ok (by omega)
  · exact State.fetchReg_bad (by omega) bad
  · exact State.fetchReg_ok (by omega) named

/-- Settles O8: the two premises are the two values of `preempts` after the poll, which leaves `servicing`. -/
theorem iterationEntersOrRunsNeverBoth : Obligations.IterationEntersOrRunsNeverBoth := by
  refine fun s hr => ⟨fun pending idle => ?_, fun noEntry => ?_⟩
  · exact step_of_preempts hr (s.poll_preempts_iff.mpr ⟨pending, idle⟩)
  · exact step_of_not_preempts hr (s.poll_preempts_eq_false_iff.mpr noEntry)

/-- Settles O14: NOP is its opcode fetch and the fetched state. -/
theorem nopChangesNothing : Obligations.NopChangesNothing :=
  ⟨encodedF0_of_opcodeHandler rfl rfl, fun _ => rfl⟩

/-- Settles O15: HLT writes the run state alone, and a machine that is not running takes no step. -/
theorem hltStopsTheRun : Obligations.HltStopsTheRun := by
  refine ⟨encodedF0_of_opcodeHandler rfl rfl, fun s => ⟨s.setRun .halted, rfl, s.setRun_run .halted, ?_⟩⟩
  have stopped : (s.setRun .halted).run ≠ .running := RunState.noConfusion
  exact ⟨sameRegsBut_setRun s .halted, fun _ => rfl, rfl, rfl, rfl, rfl, ⟨rfl, rfl, rfl, rfl, rfl⟩,
    step_ne_next_of_not_running stopped⟩

end Sys2Proof.Claims

/-! SUPPORT. How a fetch checks its operand bytes, one format at a time (R81, R82, R102 to R104). -/

namespace Sys2Proof.Machine

variable {s t u : State} {a b : Reg} {c : Condition} {x : Byte}

/-- Every format but F0 begins with a register operand, and what its fetch raises ends the fetch (R81, R104). -/
theorem State.fetchOperands_of_fetchReg_error {h : Handler} (operand : 0 < handlerOperands h)
    (first : s.fetchReg = .error c) : s.fetchOperands h = .error c := by
  cases h with
  | f0 i => cases operand
  | r make => simp [State.fetchOperands, first, bind, Except.bind]
  | rr make => simp [State.fetchOperands, first, bind, Except.bind]
  | ri make => simp [State.fetchOperands, first, bind, Except.bind]

theorem State.fetchOperands_r_ok (make : Reg → Instr) (first : s.fetchReg = .ok (a, t)) :
    s.fetchOperands (.r make) = .ok (make a, t) := by
  simp [State.fetchOperands, first, bind, Except.bind, pure, Except.pure]

theorem State.fetchOperands_rr_ok (make : Reg → Reg → Instr) (first : s.fetchReg = .ok (a, t))
    (second : t.fetchReg = .ok (b, u)) : s.fetchOperands (.rr make) = .ok (make a b, u) := by
  simp [State.fetchOperands, first, second, bind, Except.bind, pure, Except.pure]

theorem State.fetchOperands_rr_second_error (make : Reg → Reg → Instr) (first : s.fetchReg = .ok (a, t))
    (second : t.fetchReg = .error c) : s.fetchOperands (.rr make) = .error c := by
  simp [State.fetchOperands, first, second, bind, Except.bind]

theorem State.fetchOperands_ri_ok (make : Reg → Byte → Instr) (first : s.fetchReg = .ok (a, t))
    (second : t.fetchByte = .ok (x, u)) : s.fetchOperands (.ri make) = .ok (make a x, u) := by
  simp [State.fetchOperands, first, second, bind, Except.bind, pure, Except.pure]

theorem State.fetchOperands_ri_second_error (make : Reg → Byte → Instr) (first : s.fetchReg = .ok (a, t))
    (second : t.fetchByte = .error c) : s.fetchOperands (.ri make) = .error c := by
  simp [State.fetchOperands, first, second, bind, Except.bind]

end Sys2Proof.Machine

/-! SUPPORT. The encodings of the formats R, RR and RI, from the opcode's entry in the dispatch table. -/

namespace Sys2Proof.Claims

open Sys2Proof.Machine

variable {s : State} {op : Byte}

/-- The next byte to be fetched, as a byte counted from an earlier state's `ip`. -/
theorem codeByte_setIp {i : Int} {k : Nat} (place : i + 1 = s.ip + k) :
    codeByte (s.setIp i) 1 = codeByte s k := by
  simp only [codeByte, State.setIp_ip, State.setIp_readByte, Nat.cast_one, place]

/-- A fetch further on consumes the byte at its place (R102). -/
theorem fetchByte_setIp_ok {i : Int} {k : Nat} (hi : i ≤ 254) (place : i + 1 = s.ip + k) :
    (s.setIp i).fetchByte = .ok (codeByte s k, s.setIp (s.ip + k)) := by
  rw [← place, ← codeByte_setIp place]
  exact State.fetchByte_ok hi

/-- A register byte up to 7, fetched further on, is its register (R82, R103). -/
theorem fetchReg_setIp_ok {i : Int} {k : Nat} {r : Reg} (hi : i ≤ 254) (place : i + 1 = s.ip + k)
    (named : (codeByte s k).toNat = r.index) : (s.setIp i).fetchReg = .ok (r, s.setIp (s.ip + k)) := by
  rw [← codeByte_setIp place] at named
  rw [← place]
  exact State.fetchReg_ok hi named

/-- A register byte above 7, fetched further on, raises (R82, R103). -/
theorem fetchReg_setIp_bad {i : Int} {k : Nat} (hi : i ≤ 254) (place : i + 1 = s.ip + k)
    (bad : 7 < (codeByte s k).toNat) :
    (s.setIp i).fetchReg = .error (.registerIndexOutOfRange (codeByte s k)) := by
  rw [← codeByte_setIp place] at bad ⊢
  exact State.fetchReg_bad hi bad

/-- With a legal opcode the operands are fetched from the byte after it (R104). -/
theorem fetchInstr_of_opcodeHandler {h : Handler} (listed : opcodeHandler op = some h) (hi : s.ip ≤ 254)
    (hop : codeByte s 1 = op) : s.fetchInstr = (s.setIp (s.ip + 1)).fetchOperands h := by
  subst hop
  exact State.fetchInstr_legal hi listed

/-- The two ways the first operand of a format with operands raises (R82, R102). -/
theorem fetchInstr_first_operand_raises {h : Handler} (listed : opcodeHandler op = some h)
    (operand : 0 < handlerOperands h) (hi : s.ip ≤ 254) (hop : codeByte s 1 = op) :
    (s.ip = 254 → s.fetchInstr = .error (.addressOutOfRange 256)) ∧
    (s.ip ≤ 253 → 7 < (codeByte s 2).toNat →
      s.fetchInstr = .error (.registerIndexOutOfRange (codeByte s 2))) := by
  rw [fetchInstr_of_opcodeHandler listed hi hop]
  refine ⟨fun top => ?_, fun room bad => ?_⟩
  · have past : (s.setIp (s.ip + 1)).ip = 255 := by rw [State.setIp_ip, top]; rfl
    exact State.fetchOperands_of_fetchReg_error operand (State.fetchReg_end past)
  · exact State.fetchOperands_of_fetchReg_error operand (fetchReg_setIp_bad (by omega) (by omega) bad)

/-- The first operand, where it is a register, is the byte after the opcode (R103). -/
theorem fetchReg_after_opcode {r : Reg} (room : s.ip ≤ 253) (named : (codeByte s 2).toNat = r.index) :
    (s.setIp (s.ip + 1)).fetchReg = .ok (r, s.setIp (s.ip + 2)) :=
  fetchReg_setIp_ok (k := 2) (by omega) (by omega) named

/-- An opcode the table lists with one register operand is fetched as format R (R81, R104). -/
theorem encodedR_of_opcodeHandler {make : Reg → Instr} (encoded : ∀ r, encode (make r) = [op, r.toByte])
    (listed : opcodeHandler op = some (.r make)) : EncodedR op make := by
  refine ⟨encoded, fun _ => State.fetchInstr_end, fun s _ hi hop => ?_⟩
  obtain ⟨ends, bad⟩ := fetchInstr_first_operand_raises listed Nat.one_pos hi hop
  refine ⟨ends, bad, fun r room named => ?_⟩
  rw [fetchInstr_of_opcodeHandler listed hi hop]
  exact State.fetchOperands_r_ok make (fetchReg_after_opcode room named)

/-- An opcode the table lists with two register operands is fetched as format RR (R81, R104). -/
theorem encodedRR_of_opcodeHandler {make : Reg → Reg → Instr}
    (encoded : ∀ a b, encode (make a b) = [op, a.toByte, b.toByte])
    (listed : opcodeHandler op = some (.rr make)) : EncodedRR op make := by
  refine ⟨encoded, fun _ => State.fetchInstr_end, fun s _ hi hop => ?_⟩
  obtain ⟨ends, bad⟩ := fetchInstr_first_operand_raises listed Nat.two_pos hi hop
  refine ⟨ends, bad, ?_⟩
  rw [fetchInstr_of_opcodeHandler listed hi hop]
  refine ⟨fun a top ha => ?_, fun a room ha hb => ?_, fun a b room ha hb => ?_⟩
  · have past : (s.setIp (s.ip + 2)).ip = 255 := by rw [State.setIp_ip, top]; rfl
    exact State.fetchOperands_rr_second_error make (fetchReg_after_opcode (by omega) ha)
      (State.fetchReg_end past)
  · exact State.fetchOperands_rr_second_error make (fetchReg_after_opcode (by omega) ha)
      (fetchReg_setIp_bad (by omega) (by omega) hb)
  · exact State.fetchOperands_rr_ok make (fetchReg_after_opcode (by omega) ha)
      (fetchReg_setIp_ok (k := 3) (by omega) (by omega) hb)

/-- An opcode the table lists with a register and a literal is fetched as format RI (R81, R83, R104). -/
theorem encodedRI_of_opcodeHandler {make : Reg → Byte → Instr}
    (encoded : ∀ r i, encode (make r i) = [op, r.toByte, i])
    (listed : opcodeHandler op = some (.ri make)) : EncodedRI op make := by
  refine ⟨encoded, fun _ => State.fetchInstr_end, fun s _ hi hop => ?_⟩
  obtain ⟨ends, bad⟩ := fetchInstr_first_operand_raises listed Nat.two_pos hi hop
  refine ⟨ends, bad, ?_⟩
  rw [fetchInstr_of_opcodeHandler listed hi hop]
  refine ⟨fun r top named => ?_, fun r room named => ?_⟩
  · have past : (s.setIp (s.ip + 2)).ip = 255 := by rw [State.setIp_ip, top]; rfl
    exact State.fetchOperands_ri_second_error make (fetchReg_after_opcode (by omega) named)
      (State.fetchByte_end past)
  · exact State.fetchOperands_ri_ok make (fetchReg_after_opcode (by omega) named)
      (fetchByte_setIp_ok (k := 3) (by omega) (by omega))

end Sys2Proof.Claims

/-! SUPPORT. What the functions of the ALU compute, read as numbers and as bits (R10, R125 to R150). -/

namespace Sys2Proof.Machine

/-- `trunc8` is the remainder by 256 (R10). -/
theorem toNat_trunc8 (i : Int) : ((trunc8 i).toNat : Int) = i % 256 := by
  rw [trunc8, BitVec.toNat_ofInt]
  exact Int.toNat_of_nonneg (Int.emod_nonneg i (by decide))

namespace Alu

variable (va vb v : Byte)

theorem toNat_add : (add va vb).toNat = (va.toNat + vb.toNat) % 256 := by
  exact_mod_cast toNat_trunc8 (va.toNat + vb.toNat)

theorem toNat_sub : ((sub va vb).toNat : Int) = ((va.toNat : Int) - vb.toNat) % 256 :=
  toNat_trunc8 _

/-- The low byte of the product is the same for signed and unsigned factors (R127). -/
theorem mul_eq_mul : mul va vb = va * vb := by
  rw [mul, trunc8, BitVec.ofInt_mul, BitVec.ofInt_toInt, BitVec.ofInt_toInt]

theorem toNat_mul_signed : ((mul va vb).toNat : Int) = va.toInt * vb.toInt % 256 :=
  toNat_trunc8 _

theorem toNat_mul_unsigned : (mul va vb).toNat = va.toNat * vb.toNat % 256 := by
  rw [mul_eq_mul, BitVec.toNat_mul]

theorem toNat_inc : (inc v).toNat = (v.toNat + 1) % 256 := by
  exact_mod_cast toNat_trunc8 (v.toNat + 1)

theorem toNat_dec : ((dec v).toNat : Int) = ((v.toNat : Int) - 1) % 256 :=
  toNat_trunc8 _

/-- Exclusive or with 0xFF inverts every bit of the byte (R142). -/
theorem getLsbD_not {k : Nat} (hk : k < 8) : (not v).getLsbD k = !v.getLsbD k := by
  have ones : (0xFF : Byte).getLsbD k = true := by
    rw [show (0xFF : Byte) = BitVec.allOnes 8 from rfl, BitVec.getLsbD_allOnes, decide_eq_true hk]
  rw [not, BitVec.getLsbD_xor, ones, Bool.xor_true]

theorem toNat_shl : (shl va vb).toNat = va.toNat * 2 ^ vb.toNat % 256 := by
  exact_mod_cast toNat_trunc8 (va.toNat * 2 ^ vb.toNat)

/-- SHR is the arithmetic shift, so nothing is lost by `trunc8` (R146). -/
theorem toInt_shr : (shr va vb).toInt = va.toInt / 2 ^ vb.toNat := by
  have arithmetic : shr va vb = va.sshiftRight vb.toNat := rfl
  rw [arithmetic, BitVec.toInt_sshiftRight, Int.shiftRight_eq_div_pow]
  push_cast
  rfl

end Alu

/-- Exactly one of the three comparisons holds (R140). -/
theorem Flags.compare_exactly_one (va vb : Byte) :
    (Flags.compare va vb).e.toNat + (Flags.compare va vb).l.toNat + (Flags.compare va vb).g.toNat = 1 := by
  rcases Int.lt_trichotomy va.toInt vb.toInt with lt | eq | gt
  · simp [Flags.compare, lt, lt.ne, lt.le]
  · simp [Flags.compare, eq]
  · simp [Flags.compare, gt, gt.ne', gt.le]

end Sys2Proof.Machine

/-! SUPPORT. The signed division of DIV and MOD under each rounding (R11, R128, R129). -/

namespace Sys2Proof.Claims

open Sys2Proof.Machine

/-- Toward minus infinity the remainder lies between zero and the divisor. -/
theorem isQuotRem_floor (a : Int) {b : Int} (hb : b ≠ 0) :
    IsQuotRem .floor a b (a.fdiv b) (a.fmod b) := by
  refine ⟨(Int.mul_fdiv_add_fmod a b).symm, ?_⟩
  rcases Int.lt_or_gt_of_ne hb with neg | pos
  · have nonneg := Int.fmod_nonneg_of_pos (-a) (Int.neg_pos_of_neg neg)
    have below := Int.fmod_lt_of_pos (-a) (Int.neg_pos_of_neg neg)
    rw [Int.neg_fmod_neg] at nonneg below
    refine ⟨by omega, (Int.lt_or_eq_of_le (Int.nonpos_of_neg_nonneg nonneg)).symm.imp_right fun h => ?_⟩
    rw [Int.sign_eq_neg_one_of_neg h, Int.sign_eq_neg_one_of_neg neg]
  · have nonneg := Int.fmod_nonneg_of_pos a pos
    have below := Int.fmod_lt_of_pos a pos
    refine ⟨by omega, (Int.lt_or_eq_of_le nonneg).symm.imp Eq.symm fun h => ?_⟩
    rw [Int.sign_eq_one_of_pos h, Int.sign_eq_one_of_pos pos]

/-- Toward zero the remainder is that of the magnitudes, with the dividend's sign. -/
theorem isQuotRem_trunc (a : Int) {b : Int} (hb : b ≠ 0) :
    IsQuotRem .trunc a b (a.tdiv b) (a.tmod b) := by
  refine ⟨(Int.mul_tdiv_add_tmod a b).symm, ?_, ?_⟩
  · rw [Int.natAbs_tmod]
    exact Nat.mod_lt _ (Int.natAbs_pos.mpr hb)
  · by_cases divides : b ∣ a
    · exact .inl (Int.tmod_eq_zero_of_dvd divides)
    · exact .inr ((Int.sign_tmod a b).trans (if_neg divides))

/-- DIV's byte and MOD's byte are those of one quotient and remainder, under either rounding (R128, R129). -/
theorem isQuotRem_of_divisor_ne_zero (rounding : Config.Rounding) (va : Byte) {vb : Byte} (hb : vb.toInt ≠ 0) :
    ∃ q m, IsQuotRem rounding va.toInt vb.toInt q m ∧
      Alu.quotient rounding va vb = trunc8 q ∧ Alu.remainder rounding va vb = trunc8 m := by
  cases rounding with
  | floor => exact ⟨_, _, isQuotRem_floor va.toInt hb, rfl, rfl⟩
  | trunc => exact ⟨_, _, isQuotRem_trunc va.toInt hb, rfl, rfl⟩

end Sys2Proof.Claims

/-! SUPPORT. The shapes of the statements, from the operation an instruction runs (R121 to R124). -/

namespace Sys2Proof.Claims

open Sys2Proof.Machine

/-- The raised state ends the run in its condition and keeps the output history (R221, R222). -/
theorem raises_of_exec {i : Instr} {s : State} {c : Condition} (h : exec i s = .next (s.raise c)) :
    Raises i s c :=
  ⟨_, h, rfl, rfl⟩

/-- A write of the flags leaves everything else alone (R31). -/
theorem writesFlags_setFlags (s : State) (f : Flags) : WritesFlags f s (s.setFlags f) :=
  ⟨rfl, fun _ _ => ⟨rfl, rfl⟩, fun _ => rfl, rfl, rfl, rfl, rfl, rfl, rfl, rfl, rfl, rfl⟩

/-- An instruction that runs `twoReg f` has the two-register shape for what `f` computes (R121). -/
theorem twoRegShape_of_exec {make : Reg → Reg → Instr} {f : Byte → Byte → Byte}
    {value : Byte → Byte → Byte → Prop} (runs : ∀ a b s, exec (make a b) s = twoReg f a b s)
    (spec : ∀ va vb, value va vb (f va vb)) : TwoRegShape make value := by
  refine fun a b s => ⟨fun ha hb => ?_, fun ha => ?_, fun ha hb => ?_⟩
  · exact ⟨_, _, (runs a b s).trans (twoReg_ok f ha hb), spec _ _, writesReg_setReg s a _⟩
  · exact raises_of_exec ((runs a b s).trans (twoReg_unset_first f ha))
  · exact raises_of_exec ((runs a b s).trans (twoReg_unset_second f ha hb))

/-- An instruction that runs `oneReg f` has the one-register shape for what `f` computes (R122). -/
theorem oneRegShape_of_exec {make : Reg → Instr} {f : Byte → Byte} {value : Byte → Byte → Prop}
    (runs : ∀ r s, exec (make r) s = oneReg f r s) (spec : ∀ v, value v (f v)) : OneRegShape make value := by
  refine fun r s => ⟨fun hr => ?_, fun hr => ?_⟩
  · exact ⟨_, _, (runs r s).trans (oneReg_ok f hr), spec _, writesReg_setReg s r _⟩
  · exact raises_of_exec ((runs r s).trans (oneReg_unset f hr))

/-- An instruction that runs `twoRegDivision` on what `pick` takes of quotient and remainder has the shape of
DIV and MOD (R128, R129). -/
theorem divisionShape_of_exec {make : Reg → Reg → Instr} {f : Config.Rounding → Byte → Byte → Byte}
    {pick : Int → Int → Int}
    (runs : ∀ a b (s : State), exec (make a b) s = twoRegDivision (f s.params.rounding) a b s)
    (spec : ∀ rounding va (vb : Byte), vb.toInt ≠ 0 →
      ∃ q m, IsQuotRem rounding va.toInt vb.toInt q m ∧ f rounding va vb = trunc8 (pick q m)) :
    DivisionShape make pick := by
  refine fun a b s => ⟨fun ha hb nonzero => ?_, fun ha => ?_, fun ha hb => ?_, fun ha hb zero => ?_⟩
  · have divisor : (s.reg b).toInt ≠ 0 := BitVec.toInt_ne.mpr nonzero
    obtain ⟨q, m, quotRem, written⟩ := spec s.params.rounding (s.reg a) (s.reg b) divisor
    have run := (runs a b s).trans (twoRegDivision_ok _ ha hb divisor)
    exact ⟨_, q, m, run, quotRem, written ▸ writesReg_setReg s a _⟩
  · exact raises_of_exec ((runs a b s).trans (twoRegDivision_unset_first _ ha))
  · exact raises_of_exec ((runs a b s).trans (twoRegDivision_unset_second _ ha hb))
  · have divisor : (s.reg b).toInt = 0 := BitVec.toInt_inj.mpr zero
    exact raises_of_exec ((runs a b s).trans (twoRegDivision_zero _ ha hb divisor))

end Sys2Proof.Claims

/-! The statements about the arithmetic, logic and compare family (41_alu.md). -/

namespace Sys2Proof.Claims

open Sys2Proof.Machine

/-- Settles O16: all three are the two-register shape, with the result of `trunc8` as a remainder. -/
theorem addSubMulWriteTheResultModulo256 : Obligations.AddSubMulWriteTheResultModulo256 := by
  refine ⟨⟨?_, ?_⟩, ⟨?_, ?_⟩, ⟨?_, ?_⟩⟩
  · exact encodedRR_of_opcodeHandler (fun _ _ => rfl) rfl
  · exact twoRegShape_of_exec (fun _ _ _ => rfl) Alu.toNat_add
  · exact encodedRR_of_opcodeHandler (fun _ _ => rfl) rfl
  · exact twoRegShape_of_exec (fun _ _ _ => rfl) Alu.toNat_sub
  · exact encodedRR_of_opcodeHandler (fun _ _ => rfl) rfl
  · exact twoRegShape_of_exec (fun _ _ _ => rfl) fun va vb =>
      ⟨Alu.toNat_mul_signed va vb, Alu.toNat_mul_unsigned va vb⟩

/-- Settles O17: DIV and MOD write the two halves of one division. -/
theorem divModFollowTheRounding : Obligations.DivModFollowTheRounding := by
  refine ⟨⟨encodedRR_of_opcodeHandler (fun _ _ => rfl) rfl, ?_⟩,
    ⟨encodedRR_of_opcodeHandler (fun _ _ => rfl) rfl, ?_⟩⟩
  · refine divisionShape_of_exec (f := Alu.quotient) (fun _ _ _ => rfl) fun rounding va vb hb => ?_
    obtain ⟨q, m, quotRem, quotient, _⟩ := isQuotRem_of_divisor_ne_zero rounding va hb
    exact ⟨q, m, quotRem, quotient⟩
  · refine divisionShape_of_exec (f := Alu.remainder) (fun _ _ _ => rfl) fun rounding va vb hb => ?_
    obtain ⟨q, m, quotRem, _, remainder⟩ := isQuotRem_of_divisor_ne_zero rounding va hb
    exact ⟨q, m, quotRem, remainder⟩

/-- Settles O18: all three are the one-register shape. -/
theorem incDecNotWriteTheirRegister : Obligations.IncDecNotWriteTheirRegister := by
  refine ⟨⟨?_, ?_⟩, ⟨?_, ?_⟩, ⟨?_, ?_⟩⟩
  · exact encodedR_of_opcodeHandler (fun _ => rfl) rfl
  · exact oneRegShape_of_exec (fun _ _ => rfl) Alu.toNat_inc
  · exact encodedR_of_opcodeHandler (fun _ => rfl) rfl
  · exact oneRegShape_of_exec (fun _ _ => rfl) Alu.toNat_dec
  · exact encodedR_of_opcodeHandler (fun _ => rfl) rfl
  · exact oneRegShape_of_exec (fun _ _ => rfl) fun v _ => Alu.getLsbD_not v

/-- Settles O19: the flags written are the three comparisons themselves, of which exactly one holds. -/
theorem cmpSetsTheFlagsFromTheSignedComparison : Obligations.CmpSetsTheFlagsFromTheSignedComparison := by
  refine ⟨encodedRR_of_opcodeHandler (fun _ _ => rfl) rfl,
    fun a b s => ⟨fun ha hb => ?_, fun ha => ?_, fun ha hb => ?_⟩⟩
  · exact ⟨_, Flags.compare (s.reg a) (s.reg b), compareRegs_ok Flags.compare ha hb, writesFlags_setFlags s _,
      decide_eq_true_iff, decide_eq_true_iff, decide_eq_true_iff, Flags.compare_exactly_one _ _⟩
  · exact raises_of_exec (compareRegs_unset_first Flags.compare ha)
  · exact raises_of_exec (compareRegs_unset_second Flags.compare ha hb)

/-- Settles O20: each is the library's bitwise operation on the two registers. -/
theorem andOrXorWorkBitByBit : Obligations.AndOrXorWorkBitByBit := by
  refine ⟨⟨?_, ?_⟩, ⟨?_, ?_⟩, ⟨?_, ?_⟩⟩
  · exact encodedRR_of_opcodeHandler (fun _ _ => rfl) rfl
  · exact twoRegShape_of_exec (f := Alu.and) (fun _ _ _ => rfl) fun _ _ _ => BitVec.getLsbD_and
  · exact encodedRR_of_opcodeHandler (fun _ _ => rfl) rfl
  · exact twoRegShape_of_exec (f := Alu.or) (fun _ _ _ => rfl) fun _ _ _ => BitVec.getLsbD_or
  · exact encodedRR_of_opcodeHandler (fun _ _ => rfl) rfl
  · exact twoRegShape_of_exec (f := Alu.xor) (fun _ _ _ => rfl) fun _ _ _ => BitVec.getLsbD_xor

/-- Settles O21: SHL is a multiplication by a power of two, SHR a division rounded down, whatever the count. -/
theorem shiftsReadTheWholeCount : Obligations.ShiftsReadTheWholeCount := by
  refine ⟨⟨?_, ?_⟩, ⟨?_, ?_⟩⟩
  · exact encodedRR_of_opcodeHandler (fun _ _ => rfl) rfl
  · exact twoRegShape_of_exec (fun _ _ _ => rfl) Alu.toNat_shl
  · exact encodedRR_of_opcodeHandler (fun _ _ => rfl) rfl
  · exact twoRegShape_of_exec (fun _ _ _ => rfl) Alu.toInt_shr

/-- Settles O22: the immediate shape with the sum of ADD. -/
theorem addiAddsItsLiteralModulo256 : Obligations.AddiAddsItsLiteralModulo256 := by
  refine ⟨encodedRI_of_opcodeHandler (fun _ _ => rfl) rfl, fun r i s => ⟨fun hr => ?_, fun hr => ?_⟩⟩
  · exact ⟨_, _, immReg_ok Alu.add i hr, Alu.toNat_add _ _, writesReg_setReg s r _⟩
  · exact raises_of_exec (immReg_unset Alu.add i hr)

end Sys2Proof.Claims

/-! SUPPORT. What LD, ST, PUSH and POP answer, a register read at a time (R162 to R165). -/

namespace Sys2Proof.Machine

variable {a b r : Reg} {s t : State} {v : Byte} {c : Condition}

theorem execLd_ok (a : Reg) (hb : s.isSet b = true) :
    execLd a b s = .next (s.setReg a (s.readByte (addr (s.reg b)))) := by
  simp [execLd, hb, bind, Except.bind, pure, Except.pure]

theorem execLd_unset (a : Reg) (hb : s.isSet b = false) :
    execLd a b s = .next (s.raise (.unsetRegister b)) := by
  simp [execLd, hb, bind, Except.bind]

theorem execSt_ok (ha : s.isSet a = true) (hb : s.isSet b = true) :
    execSt a b s = .next (s.writeByte (addr (s.reg a)) (s.reg b)) := by
  simp [execSt, ha, hb, bind, Except.bind, pure, Except.pure]

theorem execSt_unset_first (b : Reg) (ha : s.isSet a = false) :
    execSt a b s = .next (s.raise (.unsetRegister a)) := by
  simp [execSt, ha, bind, Except.bind]

theorem execSt_unset_second (ha : s.isSet a = true) (hb : s.isSet b = false) :
    execSt a b s = .next (s.raise (.unsetRegister b)) := by
  simp [execSt, ha, hb, bind, Except.bind]

/-- PUSH of a set register is the push of its contents before SP moves (R164). -/
theorem execPush_of_isSet (hr : s.isSet r = true) : execPush r s = settle s (s.push (s.reg r)) := by
  simp [execPush, hr, bind, Except.bind]

theorem execPush_unset (hr : s.isSet r = false) : execPush r s = .next (s.raise (.unsetRegister r)) := by
  simp [execPush, hr, bind, Except.bind]

/-- POP writes the popped byte into the state whose SP has moved (R165). -/
theorem execPop_of_pop_ok (r : Reg) (popped : s.pop = .ok (v, t)) : execPop r s = .next (t.setReg r v) := by
  simp [execPop, popped, bind, Except.bind, pure, Except.pure]

theorem execPop_of_pop_error (r : Reg) (raised : s.pop = .error c) : execPop r s = .next (s.raise c) := by
  simp [execPop, raised, bind, Except.bind]

end Sys2Proof.Machine

/-! The statements about data movement and the stack instructions (42_data_stack.md). -/

namespace Sys2Proof.Claims

open Sys2Proof.Machine

/-- Two updates in a row change at most the registers that either changes. -/
theorem SameRegsBut.trans {vs ws : List Reg} {s t u : State} (first : SameRegsBut ws s t)
    (second : SameRegsBut vs t u) : SameRegsBut (vs ++ ws) s u := by
  intro q hq
  obtain ⟨notSecond, notFirst⟩ := not_or.mp (mt List.mem_append.mpr hq)
  obtain ⟨reg₁, isSet₁⟩ := first q notFirst
  obtain ⟨reg₂, isSet₂⟩ := second q notSecond
  exact ⟨reg₂.trans reg₁, isSet₂.trans isSet₁⟩

theorem sameRegsBut_setReg (s : State) (r : Reg) (v : Byte) : SameRegsBut [r] s (s.setReg r v) := by
  obtain ⟨-, -, others, -⟩ := writesReg_setReg s r v
  exact others

/-- Memory is no register (R20, R50). -/
theorem sameRegsBut_writeByte (s : State) (k : Nat) (v : Byte) : SameRegsBut [] s (s.writeByte k v) :=
  fun _ _ => ⟨rfl, rfl⟩

/-- Settles O23: LDI is one register write. -/
theorem ldiStoresItsLiteral : Obligations.LdiStoresItsLiteral :=
  ⟨encodedRI_of_opcodeHandler (fun _ _ => rfl) rfl, fun r i s => ⟨_, rfl, writesReg_setReg s r i⟩⟩

/-- Settles O24: only register `b` is read, before the one register write. -/
theorem ldLoadsFromTheAddressInB : Obligations.LdLoadsFromTheAddressInB := by
  refine ⟨encodedRR_of_opcodeHandler (fun _ _ => rfl) rfl, fun a b s => ⟨fun hb => ?_, fun hb => ?_⟩⟩
  · exact ⟨_, execLd_ok a hb, writesReg_setReg s a _⟩
  · exact raises_of_exec (execLd_unset a hb)

/-- Settles O25: ST is one memory write, which in a canonical memory changes the byte it names alone. -/
theorem stStoresAtTheAddressInA : Obligations.StStoresAtTheAddressInA := by
  refine ⟨encodedRR_of_opcodeHandler (fun _ _ => rfl) rfl,
    fun a b s => ⟨fun hw ha hb => ?_, fun ha => ?_, fun ha hb => ?_⟩⟩
  · have reads := State.readByte_writeByte hw (addr (s.reg a)) (v := s.reg b)
    exact ⟨_, execSt_ok ha hb, (reads _).trans (if_pos rfl), fun k other => (reads k).trans (if_neg other),
      sameRegsBut_writeByte s _ _, rfl, rfl, rfl, rfl, rfl, ⟨rfl, rfl, rfl, rfl, rfl⟩⟩
  · exact raises_of_exec (execSt_unset_first b ha)
  · exact raises_of_exec (execSt_unset_second ha hb)

/-- Settles O27: the register is read first, and the rest is `Push` with and without room (R62). -/
theorem pushInstructionPushesItsRegister : Obligations.PushInstructionPushesItsRegister := by
  refine ⟨encodedR_of_opcodeHandler (fun _ => rfl) rfl,
    fun r s => ⟨fun hw hr room => ?_, fun hr => ?_, fun hr full => ?_⟩⟩
  · obtain ⟨t, ht, pushed⟩ := State.push_next (s.reg r) hw room
    have run : execPush r s = .next t := by rw [execPush_of_isSet hr, ht, settle_ok]
    exact ⟨t, run, pushesByte_of_pushed pushed, pushed.kept.ip⟩
  · exact raises_of_exec (execPush_unset hr)
  · have run : execPush r s = .next (s.raise (.stackOverflow (s.reg .r7))) := by
      rw [execPush_of_isSet hr, State.push_overflow _ full, settle_error]
    exact raises_of_exec run

/-- Settles O28: `Pop` writes SP alone, and the register's write comes after it, over SP where it is R7. -/
theorem popInstructionWritesItsRegisterLast : Obligations.PopInstructionWritesItsRegisterLast := by
  refine ⟨encodedR_of_opcodeHandler (fun _ => rfl) rfl,
    fun r s => ⟨fun low high => ?_, fun empty => ?_, fun below => ?_⟩⟩
  · obtain ⟨-, -, -, pops⟩ := pushAndPopMoveSpAndCheckItsBounds s
    obtain ⟨t, popped, spMoved⟩ := pops low high
    obtain ⟨raised, -, others, bytes, ip, flags, servicing, run, out, setting⟩ := spMoved
    have higher (hne : r ≠ .r7) : sp (t.setReg r (s.readByte (sp s + 1))) = sp s + 1 := by
      rw [sp, State.reg_setReg_other t _ hne.symm, raised, BitVec.toNat_ofNat]
      omega
    exact ⟨_, execPop_of_pop_ok r popped, State.reg_setReg_same t r _, State.isSet_setReg_same t r _, higher,
      others.trans (sameRegsBut_setReg t r _), bytes, ip, flags, servicing, run, out, setting⟩
  · exact raises_of_exec (execPop_of_pop_error r (State.pop_underflow (Nat.le_of_eq empty.symm)))
  · exact raises_of_exec (execPop_of_pop_error r (State.pop_overflow below))

end Sys2Proof.Claims

/-! SUPPORT. What CALL and RET answer, a register read and a stack access at a time (R188, R189). -/

namespace Sys2Proof.Machine

variable {r : Reg} {s t : State} {v : Byte} {c : Condition}

/-- CALL jumps, to the target it read first, from the state in which the link is pushed (R188). -/
theorem execCall_of_push_ok (hr : s.isSet r = true) (pushed : s.push (callLink s.params.callLink s.ip) = .ok t) :
    execCall r s = .next (t.jumpTo (s.reg r).toNat) := by
  simp [execCall, hr, pushed, bind, Except.bind, pure, Except.pure]

theorem execCall_of_push_error (hr : s.isSet r = true)
    (raised : s.push (callLink s.params.callLink s.ip) = .error c) : execCall r s = .next (s.raise c) := by
  simp [execCall, hr, raised, bind, Except.bind]

theorem execCall_unset (hr : s.isSet r = false) : execCall r s = .next (s.raise (.unsetRegister r)) := by
  simp [execCall, hr, bind, Except.bind]

theorem execRet_of_pop_ok (popped : s.pop = .ok (v, t)) :
    execRet s = .next (t.setIp (returnIp s.params.callLink v)) := by
  simp [execRet, popped, bind, Except.bind, pure, Except.pure]

theorem execRet_of_pop_error (raised : s.pop = .error c) : execRet s = .next (s.raise c) := by
  simp [execRet, raised, bind, Except.bind]

end Sys2Proof.Machine

/-! The statements about control transfer (43_control.md). -/

namespace Sys2Proof.Claims

open Sys2Proof.Machine

/-- A jump is a write of `ip` alone (R28, R180). -/
theorem writesIp_jumpTo (s : State) (k : Nat) : WritesIp (k - 1) s (s.jumpTo k) :=
  ⟨rfl, fun _ _ => ⟨rfl, rfl⟩, fun _ => rfl, rfl, rfl, rfl, rfl, rfl, rfl, rfl, rfl, rfl⟩

/-- Where control goes after a push is no part of what was pushed (R62). -/
theorem PushesByte.jumpTo {v : Byte} {s t : State} (h : PushesByte v s t) (k : Nat) :
    PushesByte v s (t.jumpTo k) := h

/-- An instruction that runs `jumpIf` on a condition of the flags has the shape of the conditional jumps (R182). -/
theorem jumpShape_of_exec {make : Reg → Instr} {taken : Flags → Bool}
    (runs : ∀ r s, exec (make r) s = jumpIf (taken s.flags) r s) : JumpShape make taken := by
  refine fun r s => ⟨fun no => ?_, fun yes hr => ?_, fun yes hr => ?_⟩
  · rw [runs, no, jumpIf_not_taken]
  · exact ⟨_, by rw [runs, yes, jumpIf_taken hr], writesIp_jumpTo s _⟩
  · exact raises_of_exec (by rw [runs, yes, jumpIf_unset hr])

/-- Settles O30: JMP is the conditional jump whose condition always holds. -/
theorem jmpContinuesAtItsRegister : Obligations.JmpContinuesAtItsRegister := by
  have shape : JumpShape .jmp fun _ => true := jumpShape_of_exec fun _ _ => rfl
  refine ⟨encodedR_of_opcodeHandler (fun _ => rfl) rfl, fun r s => ?_⟩
  obtain ⟨-, jumps, raises⟩ := shape r s
  exact ⟨jumps rfl, raises rfl⟩

/-- Settles O31: each of the six runs `jumpIf` on its own condition. -/
theorem conditionalJumpsFollowTheirFlags : Obligations.ConditionalJumpsFollowTheirFlags := by
  refine ⟨?_, ?_, ?_, ?_, ?_, ?_⟩
  · exact ⟨encodedR_of_opcodeHandler (fun _ => rfl) rfl, jumpShape_of_exec fun _ _ => rfl⟩
  · exact ⟨encodedR_of_opcodeHandler (fun _ => rfl) rfl, jumpShape_of_exec fun _ _ => rfl⟩
  · exact ⟨encodedR_of_opcodeHandler (fun _ => rfl) rfl, jumpShape_of_exec fun _ _ => rfl⟩
  · exact ⟨encodedR_of_opcodeHandler (fun _ => rfl) rfl, jumpShape_of_exec fun _ _ => rfl⟩
  · exact ⟨encodedR_of_opcodeHandler (fun _ => rfl) rfl, jumpShape_of_exec fun _ _ => rfl⟩
  · exact ⟨encodedR_of_opcodeHandler (fun _ => rfl) rfl, jumpShape_of_exec fun _ _ => rfl⟩

/-- Settles O32: the target is read in the state before the push, which keeps everything but SP and one byte;
the jump after it is a write of `ip`. -/
theorem callPushesItsLinkAndJumps : Obligations.CallPushesItsLinkAndJumps := by
  refine ⟨encodedR_of_opcodeHandler (fun _ => rfl) rfl,
    fun r s => ⟨fun hw hr room => ?_, fun hr => ?_, fun hr full => ?_⟩⟩
  · obtain ⟨t, ht, pushed⟩ := State.push_next (callLink s.params.callLink s.ip) hw room
    exact ⟨_, execCall_of_push_ok hr ht, (pushesByte_of_pushed pushed).jumpTo _, rfl⟩
  · exact raises_of_exec (execCall_unset hr)
  · exact raises_of_exec (execCall_of_push_error hr (State.push_overflow _ full))

/-- Settles O33: `Pop` writes SP alone, and `ip` is then set from the popped byte. -/
theorem retContinuesAtThePoppedLink : Obligations.RetContinuesAtThePoppedLink := by
  refine ⟨encodedF0_of_opcodeHandler rfl rfl, fun s => ⟨fun low high => ?_, fun empty => ?_, fun below => ?_⟩⟩
  · obtain ⟨-, -, others, bytes, -, flags, servicing, run, out, setting⟩ :=
      writesReg_setReg s .r7 (BitVec.ofInt 8 ((sp s : Int) + 1))
    exact ⟨_, execRet_of_pop_ok (State.pop_ok low high), rfl, toNat_sp_add high, others, bytes, flags,
      servicing, run, out, setting⟩
  · exact raises_of_exec (execRet_of_pop_error (State.pop_underflow (Nat.le_of_eq empty.symm)))
  · exact raises_of_exec (execRet_of_pop_error (State.pop_overflow below))

end Sys2Proof.Claims

/-! SUPPORT. What the output instructions and INT answer, a register read at a time (R200 to R204). -/

namespace Sys2Proof.Machine

variable {r : Reg} {s : State}

/-- A set register's contents go to the rest of the instruction (R24). -/
theorem settle_readReg_of_isSet (f : Byte → Except Condition State) (hr : s.isSet r = true) :
    settle s (s.readReg r >>= f) = settle s (f (s.reg r)) := by
  rw [State.readReg_of_isSet hr]
  rfl

/-- An unset register ends the instruction, whatever its rest is (R24). -/
theorem settle_readReg_of_unset (f : Byte → Except Condition State) (hr : s.isSet r = false) :
    settle s (s.readReg r >>= f) = .next (s.raise (.unsetRegister r)) := by
  rw [State.readReg_of_unset hr]
  rfl

theorem execInt_of_line (hr : s.isSet r = true) (line : (s.reg r).toNat ≤ 7) :
    execInt r s = .next (s.raiseLine (s.reg r).toNat) := by
  rw [execInt, settle_readReg_of_isSet _ hr, if_neg (Nat.not_lt.mpr line), settle_ok]

theorem execInt_of_no_line (hr : s.isSet r = true) (high : 7 < (s.reg r).toNat) :
    execInt r s = .next (s.raise (.invalidInterruptLine (s.reg r).toNat)) := by
  rw [execInt, settle_readReg_of_isSet _ hr, if_pos high, settle_error]

theorem execInt_unset (hr : s.isSet r = false) : execInt r s = .next (s.raise (.unsetRegister r)) :=
  settle_readReg_of_unset _ hr

/-- The status byte with one line's bit set, bit by bit (R230). -/
theorem getLsbD_or_one_shiftLeft (status : Byte) {line k : Nat} (hline : line < 8) :
    (status ||| 1#8 <<< line).getLsbD k = (status.getLsbD k || decide (k = line)) := by
  have one : (1#8 <<< line).getLsbD k = decide (k = line) := by
    rw [← BitVec.twoPow_eq, BitVec.getLsbD_twoPow, decide_eq_true hline, Bool.true_and]
    exact decide_eq_decide.mpr eq_comm
  rw [BitVec.getLsbD_or, one]

end Sys2Proof.Machine

/-! SUPPORT. The decimal numeral of a number below 1000 (R201). -/

namespace Sys2Proof.Machine

/-- A numeral's digits, a case for each number of them: the first one is zero only where it stands alone (R201). -/
theorem decimal_eq_map_digits {n : Nat} (small : n < 1000) : ∃ digits : List Nat,
    digits ≠ [] ∧ (∀ d ∈ digits, d < 10) ∧ (digits.head? = some 0 → digits = [0]) ∧
    digits.foldl (fun m d => 10 * m + d) 0 = n ∧ decimal n = digits.map fun d => Char.ofNat (48 + d) := by
  have bound (m : Nat) : m % 10 < 10 := Nat.mod_lt m (by decide)
  by_cases one : n < 10
  · refine ⟨[n % 10], by simp, by simp [bound], by simp, ?_, ?_⟩
    · simp only [List.foldl]; omega
    · rw [decimal, if_pos one]; rfl
  · by_cases two : n < 100
    · have leading : n / 10 % 10 ≠ 0 := by omega
      refine ⟨[n / 10 % 10, n % 10], by simp, by simp [bound], by simp [leading], ?_, ?_⟩
      · simp only [List.foldl]; omega
      · rw [decimal, if_neg one, if_pos two]; rfl
    · have leading : n / 100 % 10 ≠ 0 := by omega
      refine ⟨[n / 100 % 10, n / 10 % 10, n % 10], by simp, by simp [bound], by simp [leading], ?_, ?_⟩
      · simp only [List.foldl]; omega
      · rw [decimal, if_neg one, if_neg two]; rfl

end Sys2Proof.Machine

/-! SUPPORT. The return from an interrupt (R206): seven pops into registers, then the flags and `ip`; and where
one of the nine pops finds no byte. -/

namespace Sys2Proof.Machine

/-- The registers the return pops, in order (R206). -/
abbrev restoredRegs : List Reg := [.r6, .r5, .r4, .r3, .r2, .r1, .r0]

variable {s t u : State} {v : Byte} {c : Condition}

/-- A pop at the empty value reports that value (R60, R63). -/
theorem State.pop_empty (empty : (s.reg .r7).toNat = 0xFF) : s.pop = .error (.stackUnderflow 0xFF) := by
  have top : s.reg .r7 = 0xFF := BitVec.eq_of_toNat_eq empty
  rw [State.pop_underflow (Nat.le_of_eq empty.symm), top]

/-- A pop moves SP up by one (R63). -/
theorem State.sp_of_pop_ok (popped : s.pop = .ok (v, t)) : (t.reg .r7).toNat = (s.reg .r7).toNat + 1 := by
  obtain ⟨-, room, -, rfl⟩ := State.pop_cases popped
  rw [State.reg_setReg_same, toNat_sp_add room]

/-- A pop finds its byte where SP is in the region and below the empty value (R63). -/
theorem State.pop_next (low : 0xE0 ≤ (s.reg .r7).toNat) (room : (s.reg .r7).toNat < 0xFF) :
    ∃ t, s.pop = .ok (s.readByte ((s.reg .r7).toNat + 1), t) ∧ (t.reg .r7).toNat = (s.reg .r7).toNat + 1 ∧
      KeptByPops [] s t :=
  have popped := State.pop_ok low room
  ⟨_, popped, State.sp_of_pop_ok popped, State.pop_kept popped⟩

/-- A popped byte stays in memory (R63). -/
theorem KeptByPops.readByte {rs : List Reg} (h : KeptByPops rs s t) (k : Nat) : t.readByte k = s.readByte k :=
  congrArg (Memory.read · k) h.mem

theorem State.popRegs_cons_of_pop_ok (r : Reg) (rest : List Reg) (popped : s.pop = .ok (v, t)) :
    s.popRegs (r :: rest) = (t.setReg r v).popRegs rest := by
  simp only [State.popRegs, popped, bind, Except.bind]

theorem State.popRegs_cons_of_pop_error (r : Reg) (rest : List Reg) (raised : s.pop = .error c) :
    s.popRegs (r :: rest) = .error c := by
  simp only [State.popRegs, raised, bind, Except.bind]

/-- Pops into registers raise at the empty value where the bytes above SP are fewer than the registers (R63). -/
theorem State.popRegs_underflow {rs : List Reg} : ∀ {s : State}, 0xE0 ≤ (s.reg .r7).toNat →
    0xFF < (s.reg .r7).toNat + rs.length → Reg.r7 ∉ rs → s.popRegs rs = .error (.stackUnderflow 0xFF) := by
  induction rs with
  | nil =>
    intro s _ few _
    exact absurd few (Nat.not_lt.mpr (Nat.le_of_lt_succ (s.reg .r7).isLt))
  | cons r rest ih =>
    intro s low few noSp
    obtain ⟨notHere, notLater⟩ := List.ne_and_not_mem_of_not_mem_cons noSp
    by_cases empty : (s.reg .r7).toNat = 0xFF
    · exact State.popRegs_cons_of_pop_error r rest (State.pop_empty empty)
    · obtain ⟨t, popped, moved, -⟩ :=
        State.pop_next low (Nat.lt_of_le_of_ne (Nat.le_of_lt_succ (s.reg .r7).isLt) empty)
      rw [← State.reg_setReg_other _ (s.readByte ((s.reg .r7).toNat + 1)) notHere] at moved
      rw [State.popRegs_cons_of_pop_ok r rest popped]
      rw [List.length_cons] at few
      exact ih (by omega) (by omega) notLater

theorem State.interruptReturn_of_popRegs_error (raised : s.popRegs restoredRegs = .error c) :
    s.interruptReturn = .error c := by
  simp only [State.interruptReturn, raised, bind, Except.bind]

theorem State.interruptReturn_of_flags_error (regs : s.popRegs restoredRegs = .ok u) (raised : u.pop = .error c) :
    s.interruptReturn = .error c := by
  simp only [State.interruptReturn, regs, raised, bind, Except.bind]

theorem State.interruptReturn_of_ip_error (regs : s.popRegs restoredRegs = .ok u) (flags : u.pop = .ok (v, t))
    (raised : (t.setFlags (Flags.ofByte v)).pop = .error c) : s.interruptReturn = .error c := by
  simp only [State.interruptReturn, regs, flags, raised, bind, Except.bind]

theorem State.interruptReturn_of_pops_ok {a : Byte} {w : State} (regs : s.popRegs restoredRegs = .ok u)
    (flags : u.pop = .ok (v, t)) (ip : (t.setFlags (Flags.ofByte v)).pop = .ok (a, w)) :
    s.interruptReturn = .ok ((w.setIp a.toNat).setServicing false) := by
  simp only [State.interruptReturn, regs, flags, ip, bind, Except.bind]
  rfl

/-- SP below the region: the first of the nine pops raises (R63). -/
theorem State.interruptReturn_overflow (below : (s.reg .r7).toNat < 0xE0) :
    s.interruptReturn = .error (.stackOverflow (s.reg .r7)) :=
  State.interruptReturn_of_popRegs_error (State.popRegs_cons_of_pop_error _ _ (State.pop_overflow below))

/-- The seven pops into registers where their bytes are there, and where SP then is. -/
theorem State.popRegs_restoredRegs_ok (low : 0xE0 ≤ (s.reg .r7).toNat) (room : (s.reg .r7).toNat ≤ 0xF8) :
    ∃ u, s.popRegs restoredRegs = .ok u ∧ (u.reg .r7).toNat = (s.reg .r7).toNat + 7 ∧
      ∀ k (h : k < restoredRegs.length), u.reg restoredRegs[k] = s.readByte ((s.reg .r7).toNat + 1 + k) :=
  State.popRegs_ok low (Nat.add_le_add_right room 7) (by decide) (by decide)

/-- Fewer than nine bytes above SP: whichever pop finds none raises, at the empty value (R63). -/
theorem State.interruptReturn_underflow (few : 0xF6 < (s.reg .r7).toNat) :
    s.interruptReturn = .error (.stackUnderflow 0xFF) := by
  by_cases regsFew : 0xF8 < (s.reg .r7).toNat
  · exact State.interruptReturn_of_popRegs_error
      (State.popRegs_underflow (by omega) (Nat.add_lt_add_right regsFew 7) (by decide))
  · obtain ⟨u, regs, spAfter, -⟩ := State.popRegs_restoredRegs_ok (s := s) (by omega) (by omega)
    by_cases empty : (u.reg .r7).toNat = 0xFF
    · exact State.interruptReturn_of_flags_error regs (State.pop_empty empty)
    · obtain ⟨t, flags, moved, -⟩ := State.pop_next (s := u) (by omega) (by omega)
      exact State.interruptReturn_of_ip_error regs flags (State.pop_empty (by rw [State.setFlags_reg]; omega))

/-- With nine bytes above SP every pop of the return finds its byte, and the next pop reads one byte higher (R206). -/
theorem State.interruptReturn_ok (low : 0xE0 ≤ (s.reg .r7).toNat) (room : (s.reg .r7).toNat ≤ 0xF6) :
    ∃ t, s.interruptReturn = .ok t ∧ (t.reg .r7).toNat = (s.reg .r7).toNat + 9 ∧
      (∀ k (h : k < restoredRegs.length), t.reg restoredRegs[k] = s.readByte ((s.reg .r7).toNat + 1 + k)) ∧
      t.flags = Flags.ofByte (s.readByte ((s.reg .r7).toNat + 8)) ∧
      t.ip = (s.readByte ((s.reg .r7).toNat + 9)).toNat := by
  obtain ⟨u, regs, spRegs, restored⟩ := State.popRegs_restoredRegs_ok low (by omega)
  have kept := State.popRegs_kept regs
  obtain ⟨v, flags, spFlags, keptFlags⟩ := State.pop_next (s := u) (by omega) (by omega)
  rw [kept.readByte, spRegs] at flags
  obtain ⟨w, ip, spIp, keptIp⟩ :=
    State.pop_next (s := v.setFlags (Flags.ofByte (s.readByte ((s.reg .r7).toNat + 7 + 1))))
      (by rw [State.setFlags_reg]; omega) (by rw [State.setFlags_reg]; omega)
  rw [State.setFlags_readByte, keptFlags.readByte, kept.readByte, State.setFlags_reg, spFlags, spRegs] at ip
  rw [State.setFlags_reg, spFlags, spRegs] at spIp
  refine ⟨_, State.interruptReturn_of_pops_ok regs flags ip, spIp, fun k h => ?_, keptIp.flags, rfl⟩
  have named : restoredRegs[k] ≠ .r7 := fun e => absurd (e ▸ List.getElem_mem h) (by decide)
  calc w.reg restoredRegs[k]
      _ = v.reg restoredRegs[k] := keptIp.reg _ named List.not_mem_nil
      _ = u.reg restoredRegs[k] := keptFlags.reg _ named List.not_mem_nil
      _ = s.readByte ((s.reg .r7).toNat + 1 + k) := restored k h

end Sys2Proof.Machine

/-! The statements about output and the interrupt instructions (44_io_interrupt.md). -/

namespace Sys2Proof.Claims

open Sys2Proof.Machine

/-- An instruction that reads its register and emits the event of its contents has the shape of PRN and PRA
(R200, R202). -/
theorem printShape_of_exec {make : Reg → Instr} {event : Byte → Event}
    (runs : ∀ r s, exec (make r) s = settle s (s.readReg r >>= fun v => .ok (s.emit (event v)))) :
    PrintShape make event := by
  refine fun r s => ⟨fun hr => ?_, fun hr => ?_⟩
  · have emits : EmitsOnly (event (s.reg r)) s (s.emit (event (s.reg r))) :=
      ⟨rfl, fun _ _ => ⟨rfl, rfl⟩, fun _ => rfl, rfl, rfl, rfl, rfl, rfl, rfl, rfl, rfl, rfl⟩
    exact ⟨_, (runs r s).trans (settle_readReg_of_isSet _ hr), emits⟩
  · exact raises_of_exec ((runs r s).trans (settle_readReg_of_unset _ hr))

/-- Settles O35: PRN and PRA differ in their event alone. -/
theorem prnPraAppendTheirEvent : Obligations.PrnPraAppendTheirEvent :=
  ⟨⟨encodedR_of_opcodeHandler (fun _ => rfl) rfl, printShape_of_exec fun _ _ => rfl⟩,
    ⟨encodedR_of_opcodeHandler (fun _ => rfl) rfl, printShape_of_exec fun _ _ => rfl⟩⟩

/-- Settles O37: raising a line is one write of R6, whose value is the status byte with the line's bit. -/
theorem intSetsItsStatusBit : Obligations.IntSetsItsStatusBit := by
  refine ⟨encodedR_of_opcodeHandler (fun _ => rfl) rfl,
    fun r s => ⟨fun hr line => ?_, fun hr => ?_, fun hr high => ?_⟩⟩
  · exact ⟨_, _, execInt_of_line hr line, fun k _ => getLsbD_or_one_shiftLeft _ (Nat.lt_succ_of_le line),
      writesReg_setReg s .r6 _⟩
  · exact raises_of_exec (execInt_unset hr)
  · exact raises_of_exec (execInt_of_no_line hr high)

/-- Settles O36: the magnitude of a signed byte is at most 128, and its numeral follows the sign. -/
theorem numTextIsTheSignedDecimal : Obligations.NumTextIsTheSignedDecimal := by
  intro v
  have magnitude : v.toInt.natAbs < 1000 := by
    have low := BitVec.le_toInt v
    have high := BitVec.toInt_lt (x := v)
    omega
  obtain ⟨digits, nonempty, bound, leading, value, numeral⟩ := decimal_eq_map_digits magnitude
  refine ⟨digits, nonempty, bound, leading, value, ?_⟩
  rw [← numeral, Event.text]
  split
  · rfl
  · rfl

/-- Settles O38: the return keeps what pops keep, the popped bytes are counted from SP, and where one of the
nine is missing a pop raises. -/
theorem iretRestoresTheSavedContext : Obligations.IretRestoresTheSavedContext := by
  refine ⟨encodedF0_of_opcodeHandler rfl rfl, fun s => ⟨fun low room => ?_, fun few => ?_, fun below => ?_⟩⟩
  · obtain ⟨t, returned, spAfter, restored, flags, ip⟩ := State.interruptReturn_ok low room
    obtain ⟨u, a, b, kept, rfl⟩ := State.interruptReturn_cases returned
    have runs : exec .iret s = .next _ := congrArg (settle s) returned
    have allSet : AllSet u := fun r => by
      cases r with
      | r7 => exact State.isSet_r7 u
      | _ => exact kept.set _ (by decide)
    exact ⟨_, runs, restored 0 (by decide), restored 1 (by decide), restored 2 (by decide), restored 3 (by decide),
      restored 4 (by decide), restored 5 (by decide), restored 6 (by decide), allSet, congrArg Flags.e flags,
      congrArg Flags.g flags, congrArg Flags.l flags, ip, spAfter, rfl, kept.readByte,
      kept.run, kept.out, kept.loadNext, kept.params, kept.inputs, kept.polls, kept.freeDraw⟩
  · exact raises_of_exec (congrArg (settle s) (State.interruptReturn_underflow few))
  · exact raises_of_exec (congrArg (settle s) (State.interruptReturn_overflow below))

end Sys2Proof.Claims

/-! SUPPORT. The pushes of interrupt entry (R233): where there is room whatever the memory holds, and the first of
them that raises. -/

namespace Sys2Proof.Machine

/-- The registers entry pushes after `ip` and the flags, in order (R233). -/
abbrev savedRegs : List Reg := [.r0, .r1, .r2, .r3, .r4, .r5, .r6]

/-- Register number `k` stands at place `k` (R233). -/
theorem index_lt_of_mem_take_savedRegs {n : Nat} {q : Reg} (h : q ∈ savedRegs.take n) : q.index < n := by
  obtain ⟨k, hk, rfl⟩ := List.mem_take_iff_getElem.mp h
  have place : ∀ j (hj : j < savedRegs.length), savedRegs[j].index = j := by decide
  rw [place k (Nat.lt_of_lt_of_le hk (Nat.min_le_right ..))]
  exact Nat.lt_of_lt_of_le hk (Nat.min_le_left ..)

theorem savedRegs_eq_take_append_cons_drop {r : Reg} (h : r ≠ .r7) :
    savedRegs = savedRegs.take r.index ++ r :: savedRegs.drop (r.index + 1) := by
  cases r with
  | r7 => exact absurd rfl h
  | _ => rfl

variable {r : Reg} {s t : State} {v : Byte} {c : Condition}

/-- With room a push moves SP down by one and keeps the registers, also in a memory of no canonical form (R62). -/
theorem State.push_room (v : Byte) (room : 0xE0 < (s.reg .r7).toNat) :
    ∃ t, s.push v = .ok t ∧ (t.reg .r7).toNat + 1 = (s.reg .r7).toNat ∧ KeptByPushes s t := by
  have pushed := State.push_ok v room
  refine ⟨_, pushed, ?_, State.push_kept pushed⟩
  rw [State.reg_setReg_same, toNat_sp_sub (by omega)]
  omega

/-- A push at the floor reports it (R61, R62). -/
theorem State.push_floor (v : Byte) (floor : (s.reg .r7).toNat = 0xE0) : s.push v = .error (.stackOverflow 0xE0) := by
  have bottom : s.reg .r7 = 0xE0 := BitVec.eq_of_toNat_eq floor
  rw [State.push_overflow v (Nat.le_of_eq floor), bottom]

theorem State.pushRegs_cons_of_push_ok (rest : List Reg) (hr : s.isSet r = true) (pushed : s.push (s.reg r) = .ok t) :
    s.pushRegs (r :: rest) = t.pushRegs rest := by
  simp only [State.pushRegs, State.readReg_of_isSet hr, pushed, bind, Except.bind]

theorem State.pushRegs_cons_of_push_error (rest : List Reg) (hr : s.isSet r = true)
    (raised : s.push (s.reg r) = .error c) : s.pushRegs (r :: rest) = .error c := by
  simp only [State.pushRegs, State.readReg_of_isSet hr, raised, bind, Except.bind]

theorem State.pushRegs_cons_of_unset (rest : List Reg) (hr : s.isSet r = false) :
    s.pushRegs (r :: rest) = .error (.unsetRegister r) := by
  simp only [State.pushRegs, State.readReg_of_unset hr, bind, Except.bind]

/-- An unset register raises where those before it are set and fit (R24, R223). -/
theorem State.pushRegs_unset {before : List Reg} (after : List Reg) : ∀ {s : State},
    (∀ q ∈ before, s.isSet q = true) → s.isSet r = false → 0xE0 + before.length ≤ (s.reg .r7).toNat →
    s.pushRegs (before ++ r :: after) = .error (.unsetRegister r) := by
  induction before with
  | nil => exact fun _ unset _ => State.pushRegs_cons_of_unset after unset
  | cons q rest ih =>
    intro s set unset room
    rw [List.length_cons] at room
    obtain ⟨t, pushed, lower, kept⟩ := State.push_room (s.reg q) (s := s) (by omega)
    rw [List.cons_append, State.pushRegs_cons_of_push_ok _ (set q List.mem_cons_self) pushed]
    exact ih (fun p hp => (kept.isSet p).trans (set p (List.mem_cons_of_mem q hp)))
      ((kept.isSet r).trans unset) (by omega)

/-- Too many registers for the room raise at the floor, where every register met by then is set (R61, R62). -/
theorem State.pushRegs_overflow {rs : List Reg} : ∀ {s : State}, 0xE0 ≤ (s.reg .r7).toNat →
    (s.reg .r7).toNat < 0xE0 + rs.length →
    (∀ r ∈ rs.take ((s.reg .r7).toNat - 0xE0 + 1), s.isSet r = true) →
    s.pushRegs rs = .error (.stackOverflow 0xE0) := by
  induction rs with
  | nil => exact fun low few _ => absurd low (Nat.not_le.mpr few)
  | cons r rest ih =>
    intro s low few set
    rw [List.take_succ_cons] at set
    have hr := set r List.mem_cons_self
    by_cases floor : (s.reg .r7).toNat = 0xE0
    · exact State.pushRegs_cons_of_push_error rest hr (State.push_floor _ floor)
    · obtain ⟨t, pushed, lower, kept⟩ := State.push_room (s.reg r) (s := s) (by omega)
      rw [List.length_cons] at few
      rw [← lower, Nat.sub_add_comm (by omega)] at set
      rw [State.pushRegs_cons_of_push_ok rest hr pushed]
      exact ih (by omega) (by omega)
        fun q hq => (kept.isSet q).trans (set q (List.mem_cons_of_mem r hq))

/-- The taken line's bit is cleared in R6, which is always set (R24, R232). -/
theorem State.isSet_taken (s : State) (i : Nat) (q : Reg) : (s.taken i).isSet q = s.isSet q := by
  by_cases h : q = .r6
  · rw [h, State.isSet_r6, State.isSet_r6]
  · exact State.isSet_setReg_other s _ h

/-- Clearing the taken line's bit leaves SP (R232). -/
theorem State.sp_taken (s : State) (i : Nat) : (s.taken i).reg .r7 = s.reg .r7 := rfl

theorem State.enterLine_of_ip_error (i : Nat) (raised : (s.taken i).push (trunc8 s.ip) = .error c) :
    s.enterLine i = .error c := by
  rw [State.taken] at raised
  simp only [State.enterLine, State.setReg_ip, raised, bind, Except.bind]

theorem State.enterLine_of_flags_error (i : Nat) (ip : (s.taken i).push (trunc8 s.ip) = .ok t)
    (raised : t.push t.flags.toByte = .error c) : s.enterLine i = .error c := by
  rw [State.taken] at ip
  simp only [State.enterLine, State.setReg_ip, ip, raised, bind, Except.bind]

theorem State.enterLine_of_regs_error {u : State} (i : Nat) (ip : (s.taken i).push (trunc8 s.ip) = .ok t)
    (flags : t.push t.flags.toByte = .ok u) (raised : u.pushRegs savedRegs = .error c) :
    s.enterLine i = .error c := by
  rw [State.taken] at ip
  simp only [State.enterLine, State.setReg_ip, ip, flags, raised, bind, Except.bind]

/-- With room for `ip` and the flags, entry raises what the pushes of the registers raise from two bytes below SP. -/
theorem State.enterLine_regs (i : Nat) (room : 0xE2 ≤ (s.reg .r7).toNat) :
    ∃ u : State, (u.reg .r7).toNat + 2 = (s.reg .r7).toNat ∧ (∀ q, u.isSet q = s.isSet q) ∧
      ∀ c, u.pushRegs savedRegs = .error c → s.enterLine i = .error c := by
  obtain ⟨t, ip, spIp, keptIp⟩ :=
    State.push_room (s := s.taken i) (trunc8 s.ip) (Nat.lt_of_lt_of_le (by decide) room)
  rw [s.sp_taken i] at spIp
  obtain ⟨u, flags, spFlags, keptFlags⟩ := State.push_room (s := t) t.flags.toByte (by omega)
  exact ⟨u, by omega, fun q => (keptFlags.isSet q).trans ((keptIp.isSet q).trans (s.isSet_taken i q)),
    fun _ raised => State.enterLine_of_regs_error i ip flags raised⟩

/-- Entry raises at an unset register where everything before it is set and fits (R24, R223, R233). -/
theorem State.enterLine_unset (i : Nat) (unset : s.isSet r = false)
    (earlier : ∀ q : Reg, q.index < r.index → s.isSet q = true)
    (room : 0xE2 + r.index ≤ (s.reg .r7).toNat) : s.enterLine i = .error (.unsetRegister r) := by
  have general : r ≠ .r7 := by
    rintro rfl
    exact absurd unset (by rw [State.isSet_r7]; decide)
  obtain ⟨u, lower, sets, raises⟩ := State.enterLine_regs i (Nat.le_trans (Nat.le_add_right ..) room)
  refine raises _ ?_
  rw [savedRegs_eq_take_append_cons_drop general]
  have length : (savedRegs.take r.index).length ≤ r.index := List.length_take_le ..
  exact State.pushRegs_unset _
    (fun q hq => (sets q).trans (earlier q (index_lt_of_mem_take_savedRegs hq))) ((sets r).trans unset) (by omega)

/-- With room for fewer than nine bytes entry raises at the push that does not fit, with SP there: SP itself where it
stands below the region, and the floor otherwise (R61, R62, R233). -/
theorem State.enterLine_overflow (i : Nat) (few : (s.reg .r7).toNat < 0xE9)
    (set : ∀ r : Reg, 0xE2 + r.index ≤ (s.reg .r7).toNat → s.isSet r = true) :
    s.enterLine i = .error (.stackOverflow (if (s.reg .r7).toNat < 0xE0 then s.reg .r7 else 0xE0)) := by
  by_cases below : (s.reg .r7).toNat < 0xE0
  · rw [if_pos below]
    exact State.enterLine_of_ip_error i (State.push_overflow _ (Nat.le_of_lt below))
  rw [if_neg below]
  by_cases noByte : (s.reg .r7).toNat = 0xE0
  · exact State.enterLine_of_ip_error i (State.push_floor _ noByte)
  by_cases oneByte : (s.reg .r7).toNat = 0xE1
  · obtain ⟨t, ip, lower, -⟩ :=
      State.push_room (s := s.taken i) (trunc8 s.ip) (by rw [s.sp_taken, oneByte]; decide)
    rw [s.sp_taken] at lower
    exact State.enterLine_of_flags_error i ip (State.push_floor _ (by omega))
  · obtain ⟨u, lower, sets, raises⟩ := State.enterLine_regs (s := s) i (by omega)
    refine raises _ (State.pushRegs_overflow (by omega) ?_ fun q hq => (sets q).trans (set q ?_))
    · simp only [List.length_cons, List.length_nil]
      omega
    · have place := index_lt_of_mem_take_savedRegs hq
      omega

end Sys2Proof.Machine

/-! SUPPORT. What the timer's poll does with a tick (R241). -/

namespace Sys2Proof.Machine

variable {s : State}

theorem State.pollTimer_tick_of_ne_zero (configured : s.readByte 0xD8 ≠ 0) : s.pollTimer true = s.raiseLine 0 := by
  have raises : (true && s.readByte 0xD8 != 0x00) = true := bne_iff_ne.mpr configured
  exact if_pos raises

theorem State.pollTimer_tick_of_eq_zero (off : s.readByte 0xD8 = 0) : s.pollTimer true = s := by
  rw [State.pollTimer, Config.vtBase, off]
  rfl

end Sys2Proof.Machine

/-! The statements about fatal conditions, the host's poll and interrupt entry (60_exceptions.md). -/

namespace Sys2Proof.Claims

open Sys2Proof.Machine

/-- Settles O12: the raised state is faulted, and only a running machine has a next state. -/
theorem fatalConditionEndsTheRun : Obligations.FatalConditionEndsTheRun := by
  intro s c
  have stopped : (s.raise c).run ≠ .running := RunState.noConfusion
  exact ⟨s.raise_run c, s.raise_out c, step_ne_next_of_not_running stopped⟩

/-- Settles O39: with a tick the poll raises line 0, one write of R6, exactly where vector entry 0 is not zero. -/
theorem timerRaisesLineZeroWhileConfigured : Obligations.TimerRaisesLineZeroWhileConfigured := by
  refine fun s => ⟨fun configured => ?_, State.pollTimer_tick_of_eq_zero, s.pollTimer_false⟩
  rw [State.pollTimer_tick_of_ne_zero configured]
  exact writesReg_setReg s .r6 _

/-- Settles O40: a key is one memory write and then one write of R6; the poll runs on the state whose draw is
used up. -/
theorem keyIsStoredAndRaisesLineOne : Obligations.KeyIsStoredAndRaisesLineOne := by
  refine fun s => ⟨fun k hw => ?_, s.pollKey_none, s.useDraw, ?_, rfl⟩
  · have stores := State.readByte_writeByte hw Config.keyAddr (v := k)
    obtain ⟨status, -, others, bytes, rest⟩ :=
      writesReg_setReg (s.writeByte Config.keyAddr k) .r6 (s.reg .r6 ||| 0x02)
    exact ⟨(bytes _).trans ((stores _).trans (if_pos rfl)),
      fun a other => (bytes a).trans ((stores a).trans (if_neg other)), status, others, rest⟩
  · exact ⟨fun _ _ => ⟨rfl, rfl⟩, fun _ => rfl, rfl, rfl, rfl, rfl, rfl, rfl, rfl, rfl⟩

/-- Entry takes the least line set in both mask and status (R232). -/
theorem interruptEntry_of_takesLine {s : State} {i : Nat} (h : TakesLine s i) :
    s.interruptEntry = s.enterLine i := by
  obtain ⟨line, mask, status, least⟩ := h
  have lowest : lowestLine (s.reg .r5) (s.reg .r6) = some i := by
    refine List.find?_range_eq_some.mpr ⟨by rw [mask, status]; rfl, List.mem_range.mpr line, fun j hj => ?_⟩
    rw [Bool.not_eq_true', ← Bool.not_eq_true, Bool.and_eq_true]
    exact least j hj
  rw [State.interruptEntry, lowest]

/-- The nine bytes of the statement are those entry pushes once the taken line's bit is clear (R233). -/
theorem savedBytes_eq_entryBytes (s : State) (i : Nat) : savedBytes s i = s.entryBytes i := rfl

/-- Settles O43: entry that has room is nine pushed bytes and a jump; where a push fails, or an unset register comes
first, the raise is the whole entry's. -/
theorem interruptEntrySavesTheContextAndVectors : Obligations.InterruptEntrySavesTheContextAndVectors := by
  intro s i line
  have line8 : i < 8 := line.left
  rw [interruptEntry_of_takesLine line]
  refine ⟨fun hw set room => ?_, fun r unset earlier room => ?_, fun few set => ?_⟩
  · obtain ⟨t, entered⟩ := State.enterLine_ok i hw set (show 0xE0 + 9 ≤ sp s by omega)
    obtain ⟨u, pushed, -, rfl⟩ := State.enterLine_cases hw entered
    have lower : sp u + 9 = sp s := pushed.sp
    have vector : u.readByte (0xD8 + i) = s.readByte (0xD8 + i) :=
      pushed.other _ fun ⟨inStack, _⟩ => by
        have reaches : sp s < 0xD8 + i + 9 := inStack
        omega
    have saved : ∀ k, k < 9 → (savedBytes s i)[k]? = some (u.readByte (sp s - k)) := pushed.bytes
    have others : SameBytesBut (fun k => sp s - 9 < k ∧ k ≤ sp s) s u := fun a outside =>
      pushed.other a fun ⟨low, high⟩ => outside ⟨Nat.sub_lt_right_of_lt_add (by omega) low, high⟩
    have status : u.reg .r6 = s.reg .r6 &&& ~~~(1#8 <<< i) := pushed.kept.reg .r6 (by decide)
    have regs : SameRegsBut [.r6, .r7] s u := fun q hq =>
      (sameRegsBut_setReg s .r6 _).trans (sameRegsBut_of_keptByPushes pushed.kept) q
        (mt (List.Perm.swap Reg.r6 Reg.r7 []).mem_iff.mp hq)
    have ip : ((u.readByte (0xD8 + i)).toNat : Int) - 1 = (s.readByte (0xD8 + i)).toNat - 1 := by rw [vector]
    have setting : SameSetting (s.taken i) u := sameSetting_of_keptByPushes pushed.kept
    rw [entered]
    exact ⟨_, rfl, saved, others, Nat.eq_sub_of_add_eq lower, status, regs, ip, rfl, pushed.kept.flags,
      pushed.kept.run, pushed.kept.out, setting⟩
  · rw [State.enterLine_unset i unset earlier (show 0xE2 + r.index ≤ sp s by omega)]
    exact ⟨_, rfl, rfl, rfl⟩
  · rw [State.enterLine_overflow i (show sp s < 0xE9 by omega)
      fun r (room : 0xE2 + r.index ≤ sp s) => set r (by omega)]
    exact ⟨_, rfl, rfl, rfl⟩

end Sys2Proof.Claims

/-! SUPPORT. The full loader (R265), a byte read where it was just written (R66), and the fetch of the byte at an
address (R102). -/

namespace Sys2Proof.Machine

variable {s : State}

/-- From `PROG_LIMIT` on a running machine's loader raises with the address it would have written (R265). -/
theorem State.ramLoad_full (b : Byte) (hr : s.run = .running) (full : Config.progLimit ≤ s.loadNext) :
    s.ramLoad b = s.raise (.memoryFull s.loadNext) := by
  simp [State.ramLoad, hr, full]

theorem State.readByte_writeByte_same (h : s.mem.wf) (a : Nat) (v : Byte) : (s.writeByte a v).readByte a = v :=
  (State.readByte_writeByte h a a v).trans (if_pos rfl)

/-- A fetch whose `ip` stands one before an address of memory answers the byte there (R102). -/
theorem State.fetchByte_at {a : Nat} (inMemory : a ≤ 255) (before : s.ip + 1 = a) :
    s.fetchByte = .ok (s.readByte a, s.setIp a) := by
  rw [State.fetchByte_ok (by omega), before, Int.toNat_natCast]

end Sys2Proof.Machine

/-! The statements about the loader and about a store that a fetch sees (R264, R265, R271). -/

namespace Sys2Proof.Claims

open Sys2Proof.Machine

/-- Settles O47: below 0xD7 the loader is one memory write and one move of its address, from 0xD7 on a raise. -/
theorem ramLoadAppendsOrRaisesMemoryFull : Obligations.RamLoadAppendsOrRaisesMemoryFull := by
  refine ⟨fun _ _ => rfl, fun s b running => ⟨fun hw below => ?_, fun full => ?_⟩⟩
  · have reads := State.readByte_writeByte hw s.loadNext (v := b)
    rw [State.ramLoad_appends b running below]
    exact ⟨(reads _).trans (if_pos rfl), fun k other => (reads k).trans (if_neg other), rfl,
      sameRegsBut_writeByte s s.loadNext b, rfl, rfl, rfl, rfl, rfl, rfl, rfl, rfl, rfl⟩
  · have stopped : (s.raise (.memoryFull s.loadNext)).run ≠ .running := RunState.noConfusion
    rw [State.ramLoad_full b running full]
    exact ⟨s.raise_run _, s.raise_out _, step_ne_next_of_not_running stopped⟩

/-- The fetch reads memory itself, so the byte that stands at an address is the one fetched there (R271). -/
theorem fetchedFrom_of_readByte {a : Nat} {v : Byte} {t : State} (inMemory : a ≤ 255) (stands : t.readByte a = v) :
    FetchedFrom a v t :=
  ⟨stands, fun u before kept => by rw [State.fetchByte_at inMemory before, kept, stands]⟩

/-- Settles O60: each of the three stores leaves its byte at an address of memory. -/
theorem storedByteIsFetchedNext : Obligations.StoredByteIsFetchedNext := by
  intro s inv
  refine ⟨fun a b ha hb => ?_, fun v room => ?_, fun k => ?_⟩
  · have stands := State.readByte_writeByte_same inv.memWf (addr (s.reg a)) (s.reg b)
    exact ⟨_, execSt_ok ha hb, fetchedFrom_of_readByte (Nat.le_of_lt_succ (s.reg a).isLt) stands⟩
  · obtain ⟨t, pushes, pushed⟩ := State.push_next v inv.memWf room
    obtain ⟨stands, -⟩ := pushesByte_of_pushed pushed
    exact ⟨t, pushes, fetchedFrom_of_readByte (Nat.le_of_lt_succ (s.reg .r7).isLt) stands⟩
  · have stands : (s.pollKey (some k)).readByte 0xD7 = k := State.readByte_writeByte_same inv.memWf Config.keyAddr k
    exact fetchedFrom_of_readByte (by decide) stands

end Sys2Proof.Claims

/-! SUPPORT. Decoder and encoder as one table: the bytes of an instruction are a listed opcode and the operand bytes
that its handler reads (R81, R85, R104). -/

namespace Sys2Proof

/-- The instruction a handler makes of operand bytes: as many as its format has (R81), a register byte for each
register (R82) and any byte for a literal (R83). -/
inductive Handler.Reads : Handler → Instr → List Byte → Prop
  | f0 (i : Instr) : Handler.Reads (.f0 i) i []
  | r (make : Reg → Instr) (r : Reg) : Handler.Reads (.r make) (make r) [r.toByte]
  | rr (make : Reg → Reg → Instr) (a b : Reg) : Handler.Reads (.rr make) (make a b) [a.toByte, b.toByte]
  | ri (make : Reg → Byte → Instr) (r : Reg) (x : Byte) : Handler.Reads (.ri make) (make r x) [r.toByte, x]

/-- The decoder's operand stage answers what the handler makes, and leaves what follows the operands (R84, R104). -/
theorem decodeOperands_eq_ok_iff {h : Handler} {bytes rest : List Byte} {i : Instr} :
    decodeOperands h bytes = .ok i rest ↔ ∃ operands, h.Reads i operands ∧ bytes = operands ++ rest := by
  constructor
  · intro e
    rcases decodeOperands_cases e with ⟨rfl, rfl⟩ | ⟨make, r, rfl, rfl, rfl⟩ | ⟨make, a, b, rfl, rfl, rfl⟩ |
      ⟨make, r, x, rfl, rfl, rfl⟩
    · exact ⟨_, .f0 i, rfl⟩
    · exact ⟨_, .r make r, rfl⟩
    · exact ⟨_, .rr make a b, rfl⟩
    · exact ⟨_, .ri make r x, rfl⟩
  · rintro ⟨operands, reads, rfl⟩
    cases reads with
    | f0 => rfl
    | r make r => simp [decodeOperands, Reg.ofByte_toByte]
    | rr make a b => simp [decodeOperands, Reg.ofByte_toByte]
    | ri make r x => simp [decodeOperands, Reg.ofByte_toByte]

/-- Every instruction's encoding is an opcode of the dispatch table and the operands its handler reads (R85). -/
theorem exists_reads_of_encode (i : Instr) :
    ∃ op operands h, encode i = op :: operands ∧ opcodeHandler op = some h ∧ h.Reads i operands := by
  cases i with
  | nop | hlt | ret | iret => exact ⟨_, _, _, rfl, rfl, .f0 _⟩
  | push r | pop r | prn r | pra r | call r | int r | jmp r | jeq r | jne r | jgt r | jlt r | jle r | jge r | inc r
  | dec r | not r => exact ⟨_, _, _, rfl, rfl, .r _ r⟩
  | ldi r x | addi r x => exact ⟨_, _, _, rfl, rfl, .ri _ r x⟩
  | ld a b | st a b | add a b | sub a b | mul a b | div a b | mod a b | cmp a b | and a b | or a b | xor a b
  | shl a b | shr a b => exact ⟨_, _, _, rfl, rfl, .rr _ a b⟩

/-- What a handler of the dispatch table reads after its opcode is an instruction's encoding (R85, R105). -/
theorem encode_of_reads {op : Byte} {h : Handler} {i : Instr} {operands : List Byte}
    (listed : opcodeHandler op = some h) (reads : h.Reads i operands) : encode i = op :: operands := by
  unfold opcodeHandler at listed
  split at listed
  case h_36 => cases listed
  all_goals
    rename_i place
    obtain rfl := Option.some.inj listed
    cases reads
    exact congrArg (· :: _) (BitVec.eq_of_toNat_eq place.symm)

/-- The decoder inverts the encoder, whatever follows (R84, R85, R89). -/
theorem decode_eq_ok_iff {bytes rest : List Byte} {i : Instr} :
    decode bytes = .ok i rest ↔ bytes = encode i ++ rest := by
  constructor
  · intro e
    cases bytes with
    | nil => cases e
    | cons op more =>
      simp only [decode] at e
      split at e
      · cases e
      · rename_i h listed
        obtain ⟨operands, reads, rfl⟩ := decodeOperands_eq_ok_iff.mp e
        rw [encode_of_reads listed reads, List.cons_append]
  · rintro rfl
    obtain ⟨op, operands, h, encoded, listed, reads⟩ := exists_reads_of_encode i
    rw [encoded, List.cons_append, decode, listed]
    exact decodeOperands_eq_ok_iff.mpr ⟨operands, reads, rfl⟩

/-- Operand bytes are well formed where the handler makes an instruction of them (R81, R82). -/
theorem wellFormedOperands_iff {h : Handler} {operands : List Byte} :
    wellFormedOperands h.format operands = true ↔ ∃ i, h.Reads i operands := by
  constructor
  · intro wf
    unfold wellFormedOperands at wf
    split at wf
    · rename_i format
      cases h with
      | f0 j => exact ⟨_, .f0 j⟩
      | _ => cases format
    · rename_i format
      obtain ⟨r, rfl⟩ := isRegisterByte_iff.mp wf
      cases h with
      | r make => exact ⟨_, .r make r⟩
      | _ => cases format
    · rename_i format
      obtain ⟨wfa, wfb⟩ := Bool.and_eq_true_iff.mp wf
      obtain ⟨a, rfl⟩ := isRegisterByte_iff.mp wfa
      obtain ⟨b, rfl⟩ := isRegisterByte_iff.mp wfb
      cases h with
      | rr make => exact ⟨_, .rr make a b⟩
      | _ => cases format
    · rename_i format
      obtain ⟨r, rfl⟩ := isRegisterByte_iff.mp wf
      cases h with
      | ri make => exact ⟨_, .ri make r _⟩
      | _ => cases format
    · cases wf
  · rintro ⟨i, reads⟩
    cases reads with
    | f0 => rfl
    | r make r => exact isRegisterByte_toByte r
    | rr make a b => exact Bool.and_eq_true_iff.mpr ⟨isRegisterByte_toByte a, isRegisterByte_toByte b⟩
    | ri make r x => exact isRegisterByte_toByte r

/-- The well-formed byte strings are the encodings of the instructions (R85, R88). -/
theorem wellFormed_iff_encode {bytes : List Byte} : wellFormed bytes = true ↔ ∃ i, bytes = encode i := by
  constructor
  · intro wf
    cases bytes with
    | nil => cases wf
    | cons op operands =>
      rw [wellFormed, opcodeFormat_eq] at wf
      cases listed : opcodeHandler op with
      | none => rw [listed] at wf; cases wf
      | some h =>
        rw [listed] at wf
        obtain ⟨i, reads⟩ := wellFormedOperands_iff.mp wf
        exact ⟨i, (encode_of_reads listed reads).symm⟩
  · rintro ⟨i, rfl⟩
    obtain ⟨op, operands, h, encoded, listed, reads⟩ := exists_reads_of_encode i
    rw [encoded, wellFormed, opcodeFormat_eq, listed]
    exact wellFormedOperands_iff.mpr ⟨i, reads⟩

end Sys2Proof

/-! The statements about decoder and encoder (R81 to R89). -/

namespace Sys2Proof.Claims

open Sys2Proof.Machine

/-- Settles O1: the bytes are an encoding with a rest, which the decoder inverts. -/
theorem decodeOfEncodeIsTheInstruction : Obligations.DecodeOfEncodeIsTheInstruction :=
  fun _ _ => decode_eq_ok_iff.mpr rfl

/-- Settles O2: the other direction of the same inversion. -/
theorem decodedBytesAreTheEncoding : Obligations.DecodedBytesAreTheEncoding :=
  fun _ _ _ => decode_eq_ok_iff.mp

/-- Settles O3: both sides say that the bytes are an instruction's encoding. -/
theorem decoderAcceptsExactlyWellFormedBytes : Obligations.DecoderAcceptsExactlyWellFormedBytes := by
  intro bytes
  calc wellFormed bytes = true
    _ ↔ ∃ i, bytes = encode i := wellFormed_iff_encode
    _ ↔ ∃ i, decode bytes = .ok i [] :=
      exists_congr fun i => by rw [decode_eq_ok_iff, List.append_nil]

/-- Settles O4: each word is the encoding of its instruction. -/
theorem writtenOutWordsDecode : Obligations.WrittenOutWordsDecode := by
  refine ⟨?_, ?_, ?_, ?_, ?_, ?_, ?_, ?_⟩ <;> exact decode_eq_ok_iff.mpr rfl

end Sys2Proof.Claims

/-! SUPPORT. The fetch of an instruction as the decoder run on the bytes that are left to fetch (R81, R102 to R104). -/

namespace Sys2Proof.Machine

/-- The next `n` bytes to be fetched, fewer where they end at 0xFF (R102). -/
def State.upcoming (s : State) : Nat → List Byte
  | 0 => []
  | n + 1 => if s.ip ≤ 254 then s.readByte (s.ip + 1).toNat :: (s.setIp (s.ip + 1)).upcoming n else []

/-- What a fetch from `s` answers where the decoder answers `d` on the bytes to come: an instruction with its
`consumed` bytes, or the fatal condition of the decoder's rejection, `opAddress` being where the opcode stands. -/
def State.fetched (s : State) (opAddress : Int) (consumed : Nat) : Decoded → Except Condition (Instr × State)
  | .ok i _ => .ok (i, s.setIp (s.ip + consumed))
  | .unsupportedInstruction op => .error (.unsupportedInstruction op opAddress)
  | .registerIndexOutOfRange b => .error (.registerIndexOutOfRange b)
  | .truncated => .error (.addressOutOfRange 256)

variable {s : State}

theorem State.upcoming_end (n : Nat) (h : s.ip = 255) : s.upcoming n = [] := by
  cases n with
  | zero => rfl
  | succ n => exact if_neg (by omega)

theorem State.upcoming_succ (n : Nat) (h : s.ip ≤ 254) :
    s.upcoming (n + 1) = s.readByte (s.ip + 1).toNat :: (s.setIp (s.ip + 1)).upcoming n :=
  if_pos h

/-- The bytes after `ip` are listed while their addresses are at most 0xFF (R81, R102). -/
theorem State.codeBytes_eq_upcoming (s : State) : s.codeBytes = s.upcoming 3 := by
  have places : (do let k ← List.range 3; pure (k : Int)) = [0, 1, 2] := rfl
  have later (k : Int) : s.ip + 1 + k ≤ 255 ↔ s.ip + k ≤ 254 := by omega
  simp only [State.codeBytes, State.upcoming, State.setIp_ip, State.setIp_readByte, places, List.filter_cons,
    later, decide_eq_true_iff, List.filter_nil, Int.add_zero]
  by_cases one : s.ip ≤ 254
  · by_cases two : s.ip + 1 ≤ 254
    · by_cases three : s.ip + 2 ≤ 254
      · simp [one, two, three, add_assoc]
      · simp [one, two, three, add_assoc]
    · simp [one, two, show ¬ s.ip + 2 ≤ 254 by omega]
  · simp [one, show ¬ s.ip + 1 ≤ 254 by omega, show ¬ s.ip + 2 ≤ 254 by omega]

/-- The three outcomes of a register operand's fetch, by the bytes to come: none is left, the next one names no
register, or it names one (R82, R102, R103). -/
theorem State.fetchReg_upcoming_cases (n : Nat) (hip : s.ip ≤ 255) :
    (s.upcoming (n + 1) = [] ∧ s.fetchReg = .error (.addressOutOfRange 256)) ∨
    (∃ x rest, s.upcoming (n + 1) = x :: rest ∧ Reg.ofByte x = none ∧
      s.fetchReg = .error (.registerIndexOutOfRange x)) ∨
    (∃ x r, s.upcoming (n + 1) = x :: (s.setIp (s.ip + 1)).upcoming n ∧ Reg.ofByte x = some r ∧
      s.fetchReg = .ok (r, s.setIp (s.ip + 1)) ∧ (s.setIp (s.ip + 1)).ip ≤ 255) := by
  by_cases room : s.ip ≤ 254
  · have bytes := State.upcoming_succ n room
    cases named : Reg.ofByte (s.readByte (s.ip + 1).toNat) with
    | none => exact .inr (.inl ⟨_, _, bytes, named, State.fetchReg_bad room (Reg.ofByte_eq_none.mp named)⟩)
    | some r =>
      exact .inr (.inr ⟨_, r, bytes, named, State.fetchReg_ok room (Reg.ofByte_eq_some_index.mp named),
        by rw [State.setIp_ip]; omega⟩)
  · have last : s.ip = 255 := by omega
    exact .inl ⟨State.upcoming_end _ last, State.fetchReg_end last⟩

/-- Every format but F0 needs a byte for its first operand (R81). -/
theorem decodeOperands_nil {h : Handler} (operand : 0 < handlerOperands h) : decodeOperands h [] = .truncated := by
  cases h with
  | f0 i => cases operand
  | _ => rfl

/-- Every format but F0 begins with a register operand (R81, R82). -/
theorem decodeOperands_bad {h : Handler} (operand : 0 < handlerOperands h) {x : Byte} (rest : List Byte)
    (bad : Reg.ofByte x = none) : decodeOperands h (x :: rest) = .registerIndexOutOfRange x := by
  cases h with
  | f0 i => cases operand
  | _ => rw [decodeOperands, bad]

/-- Fetching the operands one by one answers what the decoder reads from the bytes to come (R82, R104). -/
theorem State.fetchOperands_eq_fetched (h : Handler) (opAddress : Int) (hip : s.ip ≤ 255) :
    s.fetchOperands h = s.fetched opAddress (handlerOperands h) (decodeOperands h (s.upcoming 2)) := by
  rcases Nat.eq_zero_or_pos (handlerOperands h) with noOperand | operand
  · cases h with
    | f0 i => simp [State.fetchOperands, State.fetched, handlerOperands, decodeOperands, State.setIp]
    | _ => cases noOperand
  rcases State.fetchReg_upcoming_cases 1 hip with ⟨bytes, raised⟩ | ⟨x, rest, bytes, bad, raised⟩ |
    ⟨x, a, bytes, named, first, hip'⟩
  · rw [State.fetchOperands_of_fetchReg_error operand raised, bytes, decodeOperands_nil operand]; rfl
  · rw [State.fetchOperands_of_fetchReg_error operand raised, bytes, decodeOperands_bad operand rest bad]; rfl
  rw [bytes]
  cases h with
  | f0 i => cases operand
  | r make => rw [State.fetchOperands_r_ok make first, decodeOperands, named]; rfl
  | rr make =>
    rw [decodeOperands, named]
    rcases State.fetchReg_upcoming_cases 0 hip' with ⟨bytes, raised⟩ | ⟨y, rest, bytes, bad, raised⟩ |
      ⟨y, b, bytes, named, second, -⟩
    · rw [State.fetchOperands_rr_second_error make first raised, bytes]; rfl
    · rw [State.fetchOperands_rr_second_error make first raised, bytes]
      simp only [bad]; rfl
    · rw [State.fetchOperands_rr_ok make first second, bytes]
      simp [named, State.fetched, handlerOperands, add_assoc]
  | ri make =>
    rw [decodeOperands, named]
    by_cases room : (s.setIp (s.ip + 1)).ip ≤ 254
    · rw [State.fetchOperands_ri_ok make first (State.fetchByte_ok room), State.upcoming_succ 0 room]
      simp [State.fetched, handlerOperands, add_assoc]
    · have last : (s.setIp (s.ip + 1)).ip = 255 := by omega
      rw [State.fetchOperands_ri_second_error make first (State.fetchByte_end last), State.upcoming_end 1 last]
      rfl

/-- What a handler reads operand bytes as is one of the instructions it makes. -/
theorem handlerMakes_of_reads {h : Handler} {i : Instr} {operands : List Byte} (reads : h.Reads i operands) :
    handlerMakes h i := by
  cases reads with
  | f0 => rfl
  | r make r => exact ⟨r, rfl⟩
  | rr make a b => exact ⟨a, b, rfl⟩
  | ri make r x => exact ⟨r, x, rfl⟩

end Sys2Proof.Machine

/-! The statements about the fetch, the run loop and the codes of the fatal conditions (40_dispatcher.md, R220). -/

namespace Sys2Proof.Claims

open Sys2Proof.Machine

/-- Settles O7: the opcode is the first byte to come, and the operands are fetched as the decoder reads them. -/
theorem fetchAgreesWithDecoder : Obligations.FetchAgreesWithDecoder := by
  intro s _ hip
  rw [State.codeBytes_eq_upcoming]
  by_cases room : s.ip ≤ 254
  · rw [State.upcoming_succ 2 room, decode]
    cases listed : opcodeHandler (s.readByte (s.ip + 1).toNat) with
    | none => exact State.fetchInstr_illegal room listed
    | some h =>
      rw [State.fetchInstr_legal room listed,
        State.fetchOperands_eq_fetched h (s.ip + 1) (by rw [State.setIp_ip]; omega)]
      simp only
      cases decoded : decodeOperands h ((s.setIp (s.ip + 1)).upcoming 2) with
      | ok i rest =>
        obtain ⟨operands, reads, -⟩ := decodeOperands_eq_ok_iff.mp decoded
        have length : i.length = handlerOperands h + 1 := opcodeHandler_length listed (handlerMakes_of_reads reads)
        simp [State.fetched, length, add_assoc, add_comm (handlerOperands h : Int)]
      | _ => rfl
  · have last : s.ip = 255 := by omega
    rw [State.fetchInstr_end last, State.upcoming_end 3 last]
    rfl

/-- Settles O9: with nothing to enter the step is the fetch, which agrees with the decoder, and the execution. -/
theorem stepRunsTheDecodedInstruction : Obligations.StepRunsTheDecodedInstruction := by
  intro s i rest hr low high hp decoded
  have fetched := fetchAgreesWithDecoder s.poll (s.poll_ip.symm ▸ low) (s.poll_ip.symm ▸ high)
  rw [decoded, State.poll_ip] at fetched
  rw [step_of_not_preempts hr hp, runInstr, fetched]

/-- Settles O10: the step asks for the run state before it does anything. -/
theorem stoppedMachineTakesNoStep : Obligations.StoppedMachineTakesNoStep := by
  refine fun s => ⟨fun halted => ?_, fun c faulted => ?_, fun t next => ?_⟩
  · rw [step, halted]; rfl
  · rw [step, faulted]; rfl
  · obtain ⟨running, -⟩ := step_cases next
    exact running

/-- Settles O11: entry and every meaning settle to a next state, and so does a fetch that raises. -/
theorem runningMachineAlwaysSteps : Obligations.RunningMachineAlwaysSteps := by
  intro s hr
  cases hp : s.poll.preempts with
  | true =>
    rw [step_of_preempts hr hp]
    exact settle_next _ _
  | false =>
    rw [step_of_not_preempts hr hp]
    cases fetched : s.poll.fetchInstr with
    | error c => exact ⟨_, runInstr_of_fetchInstr_error fetched⟩
    | ok p =>
      rw [runInstr, fetched]
      exact exec_next p.1 p.2

/-- Settles O13: the codes are the rows of the table, and each lies between 1 and 9. -/
theorem conditionCodesAreOneToNine : Obligations.ConditionCodesAreOneToNine := by
  refine ⟨fun c => ?_, fun _ _ => rfl, fun _ => rfl, fun _ => rfl, fun _ => rfl, fun _ => rfl, fun _ _ => rfl,
    fun _ => rfl, fun _ => rfl, fun _ => rfl⟩
  cases c with
  | _ => exact ⟨Nat.le_of_ble_eq_true rfl, Nat.le_of_ble_eq_true rfl⟩

end Sys2Proof.Claims

/-! SUPPORT. The line that interrupt entry takes (R232). -/

namespace Sys2Proof.Machine

/-- The least line set in both mask and status is picked (R232). -/
theorem lowestLine_eq_some_iff {mask status : Byte} {n : Nat} :
    lowestLine mask status = some n ↔ n < 8 ∧ mask.getLsbD n = true ∧ status.getLsbD n = true ∧
      ∀ j, j < n → ¬ (mask.getLsbD j = true ∧ status.getLsbD j = true) := by
  rw [lowestLine, List.find?_range_eq_some]
  simp only [Bool.not_eq_true', ← Bool.not_eq_true, Bool.and_eq_true, List.mem_range]
  tauto

/-- No line is picked where mask and status share no bit (R231, R232). -/
theorem lowestLine_eq_none_iff {mask status : Byte} : lowestLine mask status = none ↔ mask &&& status = 0 := by
  rw [lowestLine, List.find?_eq_none]
  constructor
  · intro disjoint
    refine BitVec.eq_of_getLsbD_eq fun n hn => ?_
    rw [BitVec.getLsbD_and]
    exact (Bool.eq_false_iff.mpr (disjoint n (List.mem_range.mpr hn))).trans BitVec.getLsbD_zero.symm
  · intro disjoint n _
    rw [← BitVec.getLsbD_and, disjoint]
    exact Bool.eq_false_iff.mp BitVec.getLsbD_zero

end Sys2Proof.Machine

/-! SUPPORT. The effects of the 35 instructions sorted by the operation they perform, and where a step leads in those
terms: each whole-machine statement below is one case analysis over them. -/

namespace Sys2Proof.Claims

open Sys2Proof.Machine

/-- What an instruction that raises nothing did: one constructor for each operation on the state, with the
instructions that perform it. -/
inductive InstrChange (i : Instr) (s t : State) : Prop where
  | nothing (same : t = s)
  | halts (is : i = .hlt) (does : t = s.setRun .halted)
  | writesReg (r : Reg) (v : Byte) (is : destination i = some r) (does : t = s.setReg r v)
  | raisesLine (q : Reg) (line : Nat) (is : i = .int q) (does : t = s.raiseLine line)
  | writesFlags (a b : Reg) (f : Flags) (is : i = .cmp a b) (does : t = s.setFlags f)
  | jumps (k : Nat) (is : transfers s.flags i = true) (inMemory : k ≤ 255) (does : t = s.jumpTo k)
  | emitsNum (r : Reg) (is : i = .prn r) (does : t = s.emit (.num (s.reg r)))
  | emitsChr (r : Reg) (is : i = .pra r) (does : t = s.emit (.chr (s.reg r)))
  | stores (a b : Reg) (is : i = .st a b) (does : t = s.writeByte (addr (s.reg a)) (s.reg b))
  | pushes (r : Reg) (is : i = .push r) (does : s.push (s.reg r) = .ok t)
  | calls (r : Reg) (v : Byte) (u : State) (k : Nat) (is : i = .call r) (inMemory : k ≤ 255)
      (pushed : s.push v = .ok u) (does : t = u.jumpTo k)
  | pops (r : Reg) (v : Byte) (u : State) (is : i = .pop r) (popped : s.pop = .ok (v, u)) (does : t = u.setReg r v)
  | returns (v : Byte) (u : State) (is : i = .ret) (popped : s.pop = .ok (v, u))
      (does : t = u.setIp (returnIp s.params.callLink v))
  | returnsFromInterrupt (is : i = .iret) (does : s.interruptReturn = .ok t)

variable {i : Instr} {s t u : State}

/-- An address from a register is one of memory (R51). -/
theorem addr_le (v : Byte) : addr v ≤ 255 := Nat.le_of_lt_succ v.isLt

/-- A conditional jump changed nothing or transferred control (R182). -/
theorem instrChange_of_jumpsIf {r : Reg} (jumps : JumpsIf (transfers s.flags i) r s t) : InstrChange i s t := by
  cases taken : transfers s.flags i with
  | false => exact .nothing (jumps.not_taken taken)
  | true =>
    rw [taken] at jumps
    exact .jumps _ taken (addr_le _) jumps

theorem instrChange_of_effect (effect : Effect i s t) : InstrChange i s t := by
  cases i with
  | nop => exact .nothing effect
  | hlt => exact .halts rfl effect
  | ret =>
    obtain ⟨v, u, popped, does⟩ := effect
    exact .returns v u rfl popped does
  | iret => exact .returnsFromInterrupt rfl effect
  | push r => exact .pushes r rfl effect.right
  | pop r =>
    obtain ⟨v, u, popped, does⟩ := effect
    exact .pops r v u rfl popped does
  | prn r => exact .emitsNum r rfl effect
  | pra r => exact .emitsChr r rfl effect
  | call r =>
    obtain ⟨u, pushed, does⟩ := effect
    exact .calls r _ u _ rfl (addr_le _) pushed does
  | int r => exact .raisesLine r _ rfl effect.right
  | jmp r => exact .jumps _ rfl (addr_le _) effect
  | jeq r | jne r | jgt r | jlt r | jle r | jge r => exact instrChange_of_jumpsIf effect
  | ldi r k => exact .writesReg r k rfl effect
  | ld a b => exact .writesReg a _ rfl effect
  | st a b =>
    obtain ⟨-, -, does⟩ := effect
    exact .stores a b rfl does
  | cmp a b =>
    obtain ⟨f, does⟩ := effect
    exact .writesFlags a b f rfl does
  | inc r | dec r | not r | addi r _ | add r _ | sub r _ | mul r _ | div r _ | mod r _ | and r _ | or r _ | xor r _
  | shl r _ | shr r _ =>
    obtain ⟨v, does⟩ := effect
    exact .writesReg r v rfl does

/-- Entry, whatever the memory's form: the status bit is cleared, the pushes keep all but SP and memory, control is
transferred into memory and `servicing` set (R233 to R235). -/
theorem enterLine_kept {n : Nat} (entered : s.enterLine n = .ok t) :
    ∃ u k, KeptByPushes (s.taken n) u ∧ k ≤ 255 ∧ t = (u.jumpTo k).setServicing true := by
  simp only [State.enterLine, bind, Except.bind] at entered
  split at entered
  · cases entered
  · rename_i a ip
    split at entered
    · cases entered
    · rename_i b flags
      split at entered
      · cases entered
      · rename_i u regs
        have kept := ((State.push_kept ip).trans (State.push_kept flags)).trans (State.pushRegs_kept regs)
        exact ⟨u, _, kept, addr_le _, (Except.ok.inj entered).symm⟩

/-- Where a step leads: an interrupt was entered, an instruction was fetched and run, or a fatal condition was taken,
which leaves of the polled state what a raise leaves (R100, R104, R221). -/
inductive StepChange (s t : State) : Prop where
  | enters (n : Nat) (enters : Enters s) (entered : s.poll.enterLine n = .ok t)
  | runs (i : Instr) (u : State) (runs : RunsInstr s i u) (fetched : u = s.poll.setIp (s.ip + i.length))
      (inMemory : u.ip ≤ 255) (change : InstrChange i u t)
  | raises (c : Condition) (raised : t = s.poll.raise c)

theorem stepChange_of_step (next : step s = .next t) : StepChange s t := by
  obtain ⟨running, leads⟩ := step_cases next
  cases leads with
  | entry n preempts _ entered => exact .enters n ⟨running, preempts⟩ entered
  | entryNone preempts noLine _ =>
    obtain ⟨pending, -⟩ := s.poll_preempts_iff.mp preempts
    exact absurd (lowestLine_eq_none_iff.mp noLine) pending
  | entryRaise c _ raised => exact .raises c raised
  | fetchRaise c _ raised => exact .raises c raised
  | instr i u idle fetched effect =>
    obtain ⟨moved, inMemory⟩ := State.fetchInstr_cases fetched
    rw [State.poll_ip] at moved
    exact .runs i u ⟨running, idle, fetched⟩ moved inMemory (instrChange_of_effect effect)
  | instrRaise i u c _ fetched raised =>
    obtain ⟨rfl, -⟩ := State.fetchInstr_cases fetched
    exact .raises c raised

/-- A safe step took no fatal condition (R35, R221). -/
theorem not_safe_raise (c : Condition) : ¬ (s.raise c).Safe := fun safe => safe c rfl

end Sys2Proof.Claims

/-! SUPPORT. What an instruction and an interrupt entry leave as it was (R26, R31, R34 to R36). -/

namespace Sys2Proof.Claims

open Sys2Proof.Machine

variable {i : Instr} {s t u : State} {n : Nat}

/-- A register write never clears a valid bit (R24). -/
theorem isSet_setReg_of_isSet {r : Reg} (q : Reg) (v : Byte) (hr : s.isSet r = true) :
    (s.setReg q v).isSet r = true := by
  by_cases h : r = q
  · rw [h, State.isSet_setReg_same]
  · rw [State.isSet_setReg_other s v h, hr]

/-- A register keeps its contents through a write of another. -/
theorem reg_setReg_or (s : State) (q : Reg) (v : Byte) (r : Reg) : (s.setReg q v).reg r = s.reg r ∨ r = q := by
  by_cases h : r = q
  · exact .inr h
  · exact .inl (State.reg_setReg_other s v h)

/-- The instructions that write register `r` (R26). -/
def Writes (i : Instr) (r : Reg) : Prop :=
  destination i = some r ∨ i = .iret ∨ (r = .r6 ∧ ∃ q, i = .int q) ∨ (r = .r7 ∧ usesStack i = true)

/-- An instruction that moves SP and keeps the other registers uses the stack (R26, R65). -/
theorem reg_or_writes_of_usesStack (uses : usesStack i = true) (kept : ∀ r, r ≠ .r7 → t.reg r = s.reg r) (r : Reg) :
    t.reg r = s.reg r ∨ Writes i r := by
  by_cases h : r = .r7
  · exact .inr (.inr (.inr (.inr ⟨h, uses⟩)))
  · exact .inl (kept r h)

/-- What an instruction that raises nothing keeps of each field but memory, and which instructions write the field
instead. -/
structure InstrKeeps (i : Instr) (s t : State) : Prop where
  params : t.params = s.params
  loadNext : t.loadNext = s.loadNext
  run : t.run = s.run ∨ i = .hlt
  flags : t.flags = s.flags ∨ i = .iret ∨ ∃ a b, i = .cmp a b
  servicing : t.servicing = s.servicing ∨ i = .iret ∧ t.servicing = false
  out : t.out = s.out ∨ ∃ r, (i = .prn r ∧ t.out = s.out ++ [.num (s.reg r)]) ∨
    (i = .pra r ∧ t.out = s.out ++ [.chr (s.reg r)])
  ip : t.ip = s.ip ∨ transfers s.flags i = true
  isSet : ∀ r, s.isSet r = true → t.isSet r = true
  reg : ∀ r, t.reg r = s.reg r ∨ Writes i r

theorem InstrChange.keeps (change : InstrChange i s t) : InstrKeeps i s t := by
  cases change with
  | nothing same =>
    subst same
    exact ⟨rfl, rfl, .inl rfl, .inl rfl, .inl rfl, .inl rfl, .inl rfl, fun _ => id, fun _ => .inl rfl⟩
  | halts is does =>
    subst does
    exact ⟨rfl, rfl, .inr is, .inl rfl, .inl rfl, .inl rfl, .inl rfl, fun _ => id, fun _ => .inl rfl⟩
  | writesReg q v is does =>
    subst does
    exact ⟨rfl, rfl, .inl rfl, .inl rfl, .inl rfl, .inl rfl, .inl rfl, fun _ => isSet_setReg_of_isSet q v,
      fun r => (reg_setReg_or s q v r).imp_right fun h => .inl (is.trans (congrArg some h.symm))⟩
  | raisesLine q line is does =>
    subst does
    exact ⟨rfl, rfl, .inl rfl, .inl rfl, .inl rfl, .inl rfl, .inl rfl, fun _ => isSet_setReg_of_isSet .r6 _,
      fun r => (reg_setReg_or s .r6 _ r).imp_right fun h => .inr (.inr (.inl ⟨h, q, is⟩))⟩
  | writesFlags a b f is does =>
    subst does
    exact ⟨rfl, rfl, .inl rfl, .inr (.inr ⟨a, b, is⟩), .inl rfl, .inl rfl, .inl rfl, fun _ => id, fun _ => .inl rfl⟩
  | jumps k is _ does =>
    subst does
    exact ⟨rfl, rfl, .inl rfl, .inl rfl, .inl rfl, .inl rfl, .inr is, fun _ => id, fun _ => .inl rfl⟩
  | emitsNum r is does =>
    subst does
    exact ⟨rfl, rfl, .inl rfl, .inl rfl, .inl rfl, .inr ⟨r, .inl ⟨is, rfl⟩⟩, .inl rfl, fun _ => id, fun _ => .inl rfl⟩
  | emitsChr r is does =>
    subst does
    exact ⟨rfl, rfl, .inl rfl, .inl rfl, .inl rfl, .inr ⟨r, .inr ⟨is, rfl⟩⟩, .inl rfl, fun _ => id, fun _ => .inl rfl⟩
  | stores a b is does =>
    subst does
    exact ⟨rfl, rfl, .inl rfl, .inl rfl, .inl rfl, .inl rfl, .inl rfl, fun _ => id, fun _ => .inl rfl⟩
  | pushes q is does =>
    subst is
    have kept := State.push_kept does
    exact ⟨kept.params, kept.loadNext, .inl kept.run, .inl kept.flags, .inl kept.servicing, .inl kept.out,
      .inl kept.ip, fun r => (kept.isSet r).trans, reg_or_writes_of_usesStack rfl kept.reg⟩
  | calls q v u k is _ pushed does =>
    subst is does
    have kept := State.push_kept pushed
    exact ⟨kept.params, kept.loadNext, .inl kept.run, .inl kept.flags, .inl kept.servicing, .inl kept.out,
      .inr rfl, fun r => (kept.isSet r).trans, reg_or_writes_of_usesStack rfl kept.reg⟩
  | pops q v u is popped does =>
    subst is does
    have kept := State.pop_kept popped
    refine ⟨kept.params, kept.loadNext, .inl kept.run, .inl kept.flags, .inl kept.servicing, .inl kept.out,
      .inl kept.ip, fun r hr => isSet_setReg_of_isSet q v (kept.isSet r hr), fun r => ?_⟩
    rcases reg_setReg_or u q v r with same | rfl
    · rw [same]
      exact reg_or_writes_of_usesStack rfl (fun r h => kept.reg r h List.not_mem_nil) r
    · exact .inr (.inl rfl)
  | returns v u is popped does =>
    subst is does
    have kept := State.pop_kept popped
    exact ⟨kept.params, kept.loadNext, .inl kept.run, .inl kept.flags, .inl kept.servicing, .inl kept.out, .inr rfl,
      kept.isSet, reg_or_writes_of_usesStack rfl fun r h => kept.reg r h List.not_mem_nil⟩
  | returnsFromInterrupt is does =>
    subst is
    obtain ⟨u, a, b, kept, rfl⟩ := State.interruptReturn_cases does
    exact ⟨kept.params, kept.loadNext, .inl kept.run, .inr (.inl rfl), .inr ⟨rfl, rfl⟩, .inl kept.out, .inr rfl,
      kept.isSet, fun _ => .inr (.inr (.inl rfl))⟩

/-- What interrupt entry keeps: it writes R6, R7, memory, `ip` and `servicing` (R233 to R235). -/
structure EntryKeeps (s t : State) : Prop where
  params : t.params = s.params
  loadNext : t.loadNext = s.loadNext
  run : t.run = s.run
  flags : t.flags = s.flags
  servicing : t.servicing = true
  out : t.out = s.out
  isSet : ∀ r, t.isSet r = s.isSet r
  reg : ∀ r, t.reg r = s.reg r ∨ r = .r6 ∨ r = .r7

theorem entryKeeps_of_enterLine (entered : s.enterLine n = .ok t) : EntryKeeps s t := by
  obtain ⟨u, k, kept, -, rfl⟩ := enterLine_kept entered
  refine ⟨kept.params, kept.loadNext, kept.run, kept.flags, rfl, kept.out,
    fun r => (kept.isSet r).trans (s.isSet_taken n r), fun r => ?_⟩
  by_cases h : r = .r7
  · exact .inr (.inr h)
  · exact (reg_setReg_or s .r6 _ r).imp (kept.reg r h).trans .inl

end Sys2Proof.Claims

/-! The whole-machine statements about every field but memory (R24, R26, R28, R31, R34 to R36). -/

namespace Sys2Proof.Claims

open Sys2Proof.Machine

/-- Settles O52: neither the poll nor entry writes the flags. -/
theorem onlyCmpAndIretWriteTheFlags : Obligations.OnlyCmpAndIretWriteTheFlags := by
  intro s t next safe changed
  cases stepChange_of_step next with
  | enters n _ entered => exact absurd ((entryKeeps_of_enterLine entered).flags.trans s.poll_flags) changed
  | runs i u runs fetched _ change =>
    subst fetched
    exact ⟨i, _, runs, change.keeps.flags.resolve_left fun same => changed (same.trans s.poll_flags)⟩
  | raises c raised => exact absurd (raised ▸ safe) (not_safe_raise c)

/-- Settles O53: entry sets `servicing` whatever it was, and of the instructions IRET alone writes it. -/
theorem onlyEntryAndIretWriteServicing : Obligations.OnlyEntryAndIretWriteServicing := by
  intro s t next safe changed
  cases stepChange_of_step next with
  | enters n enters entered => exact .inl ⟨enters, (entryKeeps_of_enterLine entered).servicing⟩
  | runs i u runs fetched _ change =>
    subst fetched
    obtain ⟨rfl, cleared⟩ := change.keeps.servicing.resolve_left fun same => changed (same.trans s.poll_servicing)
    exact .inr ⟨_, runs, cleared⟩
  | raises c raised => exact absurd (raised ▸ safe) (not_safe_raise c)

/-- Settles O54: a fatal condition keeps the history too, and only PRN and PRA append to it. -/
theorem outputOnlyGrowsByPrnAndPra : Obligations.OutputOnlyGrowsByPrnAndPra := by
  intro s t next
  cases stepChange_of_step next with
  | enters n _ entered => exact .inl ((entryKeeps_of_enterLine entered).out.trans s.poll_out)
  | runs i u runs fetched _ change =>
    have history : u.out = s.out := by rw [fetched, State.setIp_out, State.poll_out]
    have out := change.keeps.out
    rw [history] at out
    exact out.imp_right fun ⟨r, printed⟩ => ⟨i, u, r, runs, printed⟩
  | raises c raised => exact .inl (by rw [raised, State.raise_out, State.poll_out])

/-- Settles O55: the run goes on in the polled state, and HLT alone writes it. -/
theorem onlyHltHaltsTheRun : Obligations.OnlyHltHaltsTheRun := by
  intro s t next halted
  cases stepChange_of_step next with
  | enters n enters entered =>
    have running : t.run = .running := (entryKeeps_of_enterLine entered).run.trans (s.poll_run.trans enters.left)
    rw [halted] at running
    cases running
  | runs i u runs fetched _ change =>
    have running : u.run = .running := by rw [fetched, State.setIp_run, State.poll_run, runs.left]
    rcases change.keeps.run with same | rfl
    · rw [halted, running] at same
      cases same
    · exact ⟨u, runs⟩
  | raises c raised =>
    rw [raised, State.raise_run] at halted
    cases halted

/-- Settles O56: every write of a register sets it, and nothing writes the parameters or the loader's address. -/
theorem validBitsAreNeverCleared : Obligations.ValidBitsAreNeverCleared := by
  intro s t next
  cases stepChange_of_step next with
  | enters n _ entered =>
    have kept := entryKeeps_of_enterLine entered
    exact ⟨fun _ r hr => (kept.isSet r).trans ((s.isSet_poll r).trans hr), kept.params.trans s.poll_params,
      kept.loadNext.trans s.poll_loadNext⟩
  | runs i u _ fetched _ change =>
    subst fetched
    have kept := change.keeps
    exact ⟨fun _ r hr => kept.isSet r ((s.isSet_poll r).trans hr), kept.params.trans s.poll_params,
      kept.loadNext.trans s.poll_loadNext⟩
  | raises c raised =>
    subst raised
    exact ⟨fun safe => absurd safe (not_safe_raise c), s.poll_params, s.poll_loadNext⟩

/-- An iteration that runs an instruction runs one only. -/
theorem RunsInstr.unique {s u v : State} {i j : Instr} (h : RunsInstr s i u) (k : RunsInstr s j v) :
    i = j ∧ u = v := by
  obtain ⟨-, -, fetched⟩ := h
  obtain ⟨-, -, fetched'⟩ := k
  exact Prod.mk.inj (Except.ok.inj (fetched.symm.trans fetched'))

/-- Settles O57: the fetch moves `ip` by the length, and only a transfer of control moves it further. -/
theorem ipAdvancesByTheInstructionLength : Obligations.IpAdvancesByTheInstructionLength := by
  intro s t u i runs stays next safe
  cases stepChange_of_step next with
  | enters n enters _ =>
    obtain ⟨-, idle, -⟩ := runs
    exact absurd (idle.symm.trans enters.right) Bool.false_ne_true
  | runs j v runs' fetched _ change =>
    obtain ⟨rfl, rfl⟩ := runs.unique runs'
    have same := change.keeps.ip.resolve_right fun transferred => Bool.false_ne_true (stays.symm.trans transferred)
    rw [same, fetched, State.setIp_ip]
  | raises c raised => exact absurd (raised ▸ safe) (not_safe_raise c)

/-- Settles O59: the poll writes R6 alone and that for a tick or a key, entry writes R6 and R7, and an instruction
the registers of its row. -/
theorem registersChangeOnlyByTheirWriters : Obligations.RegistersChangeOnlyByTheirWriters := by
  intro s t r next safe changed
  by_cases polled : s.poll.reg r = s.reg r
  · rw [← polled] at changed
    cases stepChange_of_step next with
    | enters n enters entered =>
      exact .inr (.inr ⟨enters, ((entryKeeps_of_enterLine entered).reg r).resolve_left changed⟩)
    | runs i u runs fetched _ change =>
      subst fetched
      exact .inl ⟨i, _, runs, (change.keeps.reg r).resolve_left changed⟩
    | raises c raised => exact absurd (raised ▸ safe) (not_safe_raise c)
  · have status : r = .r6 := by_contra fun other => polled (s.reg_poll r other)
    refine .inr (.inl ⟨status, or_iff_not_imp_left.mpr fun noTick noKey => polled ?_⟩)
    exact s.reg_poll_silent (Bool.eq_false_iff.mpr noTick) noKey r

end Sys2Proof.Claims

/-! SUPPORT. The invariant through an instruction and an interrupt entry (R27, R50), and the bytes they change
(R62, R163, R233). -/

namespace Sys2Proof.Claims

open Sys2Proof.Machine

variable {i : Instr} {s t u : State} {n : Nat}

/-- Either link is an address of memory, or one below it (R27, R189). -/
theorem returnIp_mem_range (link : Config.CallLink) (v : Byte) : -1 ≤ returnIp link v ∧ returnIp link v ≤ 255 := by
  have byte : v.toNat < 256 := v.isLt
  cases link with
  | lastByte => simp only [returnIp, uval]; omega
  | nextInstr => simp only [returnIp, uval]; omega

theorem inv_of_interruptReturn (inv : s.Inv) (returned : s.interruptReturn = .ok t) : t.Inv := by
  obtain ⟨u, a, b, kept, rfl⟩ := State.interruptReturn_cases returned
  have byte : a.toNat < 256 := a.isLt
  have popped : u.Inv :=
    ⟨kept.mem.symm ▸ inv.memWf, kept.ip.symm ▸ inv.ipLow, kept.ip.symm ▸ inv.ipHigh, kept.loadNext.symm ▸ inv.loadNext⟩
  exact ((popped.setFlags _).setIp (by omega) (by omega)).setServicing false

theorem InstrChange.inv (change : InstrChange i s t) (inv : s.Inv) : t.Inv := by
  cases change with
  | nothing same => exact same ▸ inv
  | halts _ does => exact does ▸ inv.setRun .halted
  | writesReg r v _ does => exact does ▸ inv.setReg r v
  | raisesLine q line _ does => exact does ▸ inv.setReg .r6 _
  | writesFlags a b f _ does => exact does ▸ inv.setFlags f
  | jumps k _ inMemory does => exact does ▸ inv.jumpTo inMemory
  | emitsNum r _ does => exact does ▸ inv.emit _
  | emitsChr r _ does => exact does ▸ inv.emit _
  | stores a b _ does => exact does ▸ inv.writeByte (s.reg a).isLt _
  | pushes r _ does => exact inv.push does
  | calls r v u k _ inMemory pushed does => exact does ▸ (inv.push pushed).jumpTo inMemory
  | pops r v u _ popped does => exact does ▸ (inv.pop popped).setReg r v
  | returns v u _ popped does =>
    obtain ⟨low, high⟩ := returnIp_mem_range s.params.callLink v
    exact does ▸ (inv.pop popped).setIp low high
  | returnsFromInterrupt _ does => exact inv_of_interruptReturn inv does

theorem inv_of_enterLine (inv : s.Inv) (entered : s.enterLine n = .ok t) : t.Inv := by
  obtain ⟨u, pushed, -, rfl⟩ := State.enterLine_cases inv.memWf entered
  have kept := pushed.kept
  have saved : u.Inv :=
    ⟨pushed.memWf, kept.ip.symm ▸ inv.ipLow, kept.ip.symm ▸ inv.ipHigh, kept.loadNext.symm ▸ inv.loadNext⟩
  exact (saved.jumpTo (addr_le _)).setServicing true

/-- A push changes the byte at SP alone (R62). -/
theorem readByte_or_sp_of_push {v : Byte} (hw : s.mem.wf) (pushed : s.push v = .ok t) (k : Nat) :
    t.readByte k = s.readByte k ∨ k = sp s := by
  obtain ⟨-, others, -⟩ := pushesByte_of_pushed (Pushed.of_push hw pushed)
  exact or_iff_not_imp_right.mpr (others k)

/-- The byte an instruction changes is the one its store goes to (R62, R163). -/
theorem InstrChange.readByte (change : InstrChange i s t) (hw : s.mem.wf) (k : Nat) :
    t.readByte k = s.readByte k ∨ (∃ a b, i = .st a b ∧ k = addr (s.reg a)) ∨
      ((∃ r, i = .push r ∨ i = .call r) ∧ k = sp s) := by
  cases change with
  | nothing same => exact .inl (by rw [same])
  | halts _ does => exact .inl (by rw [does, State.setRun_readByte])
  | writesReg r v _ does => exact .inl (by rw [does, State.setReg_readByte])
  | raisesLine q line _ does => exact .inl (by rw [does, State.raiseLine_readByte])
  | writesFlags a b f _ does => exact .inl (by rw [does, State.setFlags_readByte])
  | jumps k _ _ does => exact .inl (by rw [does, State.jumpTo_readByte])
  | emitsNum r _ does => exact .inl (by rw [does, State.emit_readByte])
  | emitsChr r _ does => exact .inl (by rw [does, State.emit_readByte])
  | stores a b is does =>
    by_cases h : k = addr (s.reg a)
    · exact .inr (.inl ⟨a, b, is, h⟩)
    · exact .inl (by rw [does, State.readByte_writeByte hw, if_neg h])
  | pushes r is does =>
    exact (readByte_or_sp_of_push hw does k).imp_right fun h => .inr ⟨⟨r, .inl is⟩, h⟩
  | calls r v u _ is _ pushed does =>
    rw [does, State.jumpTo_readByte]
    exact (readByte_or_sp_of_push hw pushed k).imp_right fun h => .inr ⟨⟨r, .inr is⟩, h⟩
  | pops r v u _ popped does =>
    rw [does, State.setReg_readByte]
    exact .inl ((State.pop_kept popped).readByte k)
  | returns v u _ popped does =>
    rw [does, State.setIp_readByte]
    exact .inl ((State.pop_kept popped).readByte k)
  | returnsFromInterrupt _ does =>
    obtain ⟨u, a, b, kept, rfl⟩ := State.interruptReturn_cases does
    exact .inl (kept.readByte k)

/-- The bytes an interrupt entry changes are the nine at SP and below it (R233). -/
theorem readByte_of_enterLine (hw : s.mem.wf) (entered : s.enterLine n = .ok t) (k : Nat) :
    t.readByte k = s.readByte k ∨ (sp s - 9 < k ∧ k ≤ sp s) := by
  obtain ⟨u, pushed, -, rfl⟩ := State.enterLine_cases hw entered
  have lower : sp u + 9 = sp s := pushed.sp
  by_cases inStack : sp s < k + 9 ∧ k ≤ sp s
  · exact .inr ⟨by omega, inStack.right⟩
  · exact .inl (pushed.other k inStack)

/-- The poll changes the keyboard cell alone, and that for a key (R242). -/
theorem readByte_poll (hw : s.mem.wf) (k : Nat) :
    s.poll.readByte k = s.readByte k ∨ (k = 0xD7 ∧ s.nextDraw.key ≠ none) := by
  rcases s.poll_mem with same | ⟨v, key, stored⟩
  · exact .inl (congrArg (Memory.read · k) same)
  · by_cases cell : k = 0xD7
    · exact .inr ⟨cell, by rw [key]; exact Option.some_ne_none v⟩
    · have reads : s.poll.readByte k = (s.mem.write 0xD7 v).read k := congrArg (Memory.read · k) stored
      exact .inl (by rw [reads, Memory.read_write hw, if_neg cell]; rfl)

end Sys2Proof.Claims

/-! The statements about the invariant and about memory (R27, R50, R56, R62, R163, R242, R265). -/

namespace Sys2Proof.Claims

open Sys2Proof.Machine

/-- Settles O50: memory is empty, `ip` is -1 and the loader stands at 0x00. -/
theorem resetMeetsTheInvariant : Obligations.ResetMeetsTheInvariant :=
  fun _ _ => ⟨Memory.nil_wf, Int.le_refl (-1), (by decide : (-1 : Int) ≤ 255), Nat.zero_le _⟩

/-- Settles O51: the poll, the fetch, each operation of an instruction, entry and a raise each keep it. -/
theorem stepKeepsTheInvariant : Obligations.StepKeepsTheInvariant := by
  intro s t inv next
  cases stepChange_of_step next with
  | enters n _ entered => exact inv_of_enterLine inv.poll entered
  | runs i u _ fetched inMemory change =>
    subst fetched
    have low : -1 ≤ s.ip + i.length := by have := inv.ipLow; omega
    exact change.inv (inv.poll.setIp low inMemory)
  | raises c raised => exact raised ▸ inv.poll.raise c

/-- Settles O58: a byte that the poll left is changed by entry's pushes or by the store of the instruction run. -/
theorem memoryChangesOnlyWhereAStoreGoes : Obligations.MemoryChangesOnlyWhereAStoreGoes := by
  intro s t k inv next safe changed
  refine (readByte_poll inv.memWf k).symm.imp_right fun polled => ?_
  rw [← polled] at changed
  cases stepChange_of_step next with
  | enters n enters entered =>
    have cells := (readByte_of_enterLine inv.poll.memWf entered k).resolve_left changed
    rw [sp, s.reg_poll .r7 (by decide)] at cells
    exact .inl ⟨enters, cells⟩
  | runs i u runs fetched _ change =>
    subst fetched
    exact .inr ⟨i, _, runs, (change.readByte inv.poll.memWf k).resolve_left changed⟩
  | raises c raised => exact absurd (raised ▸ safe) (not_safe_raise c)

end Sys2Proof.Claims

/-! The statements about the stack's round trips (R165, R190) and the line entry takes (R232). -/

namespace Sys2Proof.Claims

open Sys2Proof.Machine

/-- Settles O42: the least line by the search's own law, and none where mask and status share no bit. -/
theorem lowestPendingEnabledLineIsTaken : Obligations.LowestPendingEnabledLineIsTaken :=
  fun _ _ => ⟨fun _ => lowestLine_eq_some_iff, lowestLine_eq_none_iff⟩

/-- With room a pushed byte leaves SP one lower (R62). -/
theorem PushesByte.sp_succ {v : Byte} {s t : State} (h : PushesByte v s t) (room : 0xE0 < sp s) :
    sp t + 1 = sp s := by
  obtain ⟨-, -, lower, -⟩ := h
  have lower : sp t = sp s - 1 := lower
  omega

/-- Settles O29: the pop reads the byte the push left at the old SP and moves SP back. -/
theorem pushThenPopRestores : Obligations.PushThenPopRestores := by
  intro r s hw hr room
  obtain ⟨-, pushes⟩ := pushInstructionPushesItsRegister
  obtain ⟨t, pushed, byte, ip⟩ := (pushes r s).left hw hr room
  have below := byte.sp_succ room
  have top : sp s < 256 := (s.reg .r7).isLt
  obtain ⟨written, others, -, regs, flags, -⟩ := byte
  obtain ⟨-, pops⟩ := popInstructionWritesItsRegisterLast
  obtain ⟨u, popped, restored, set, higher, regs', bytes, ip', flags', -⟩ :=
    (pops r t).left (by omega) (by omega)
  rw [below, sp, written] at restored
  refine ⟨t, u, pushed, popped, fun q => ?_, ip'.trans ip, flags'.trans flags,
    fun k other => (bytes k).trans (others k other)⟩
  by_cases same : q = r
  · subst same
    exact ⟨restored, set.trans hr.symm⟩
  · by_cases pointer : q = .r7
    · subst pointer
      exact ⟨BitVec.eq_of_toNat_eq ((higher (Ne.symm same)).trans below), rfl⟩
    · obtain ⟨reg, isSet⟩ := regs q (by simpa using pointer)
      obtain ⟨reg', isSet'⟩ := regs' q (by simp [same, pointer])
      exact ⟨reg'.trans reg, isSet'.trans isSet⟩

/-- The link that CALL pushes is undone by RET under the same `CALL_LINK` (R188, R189). -/
theorem returnIp_callLink (link : Config.CallLink) {ip : Int} (low : 0 ≤ ip) (high : ip ≤ 254) :
    returnIp link (callLink link ip) = ip := by
  cases link with
  | lastByte =>
    have byte := toNat_trunc8 ip
    simp only [returnIp, callLink, uval]
    omega
  | nextInstr =>
    have byte := toNat_trunc8 (ip + 1)
    simp only [returnIp, callLink, uval]
    omega

/-- Settles O34: RET pops the link from where CALL pushed it. -/
theorem callThenRetReturnsAfterTheCall : Obligations.CallThenRetReturnsAfterTheCall := by
  intro r s t u hw low high hr room called spKept linkKept params
  obtain ⟨-, calls⟩ := callPushesItsLinkAndJumps
  obtain ⟨t', called', byte, -⟩ := (calls r s).left hw hr room
  obtain rfl := Host.Outcome.next.inj (called.symm.trans called')
  have below := byte.sp_succ room
  rw [← spKept] at below
  have top : sp s < 256 := (s.reg .r7).isLt
  obtain ⟨written, -⟩ := byte
  obtain ⟨w, popped, spAfter, -⟩ := State.pop_next (s := u) (show 0xE0 ≤ sp u by omega) (show sp u < 0xFF by omega)
  have link : u.readByte (sp u + 1) = callLink s.params.callLink s.ip := by rw [below, linkKept]; exact written
  have ip : returnIp u.params.callLink (u.readByte (sp u + 1)) = s.ip := by
    rw [link, params, returnIp_callLink _ low high]
  exact ⟨_, execRet_of_pop_ok popped, ip, spAfter.trans below⟩

end Sys2Proof.Claims

/-! SUPPORT. The load of a program longer than the loader's room (R265, R266). -/

namespace Sys2Proof.Machine

variable {s : State}

/-- Once the run has ended nothing more is loaded (log 9). -/
theorem State.loadBytes_of_not_running (stopped : s.run ≠ .running) (bytes : List Byte) : s.loadBytes bytes = s := by
  induction bytes with
  | nil => rfl
  | cons b rest ih =>
    have unchanged : s.ramLoad b = s := by
      unfold State.ramLoad
      split
      · exact absurd ‹_› stopped
      · rfl
      · rfl
    rw [State.loadBytes, unchanged, ih]

/-- Bytes that do not fit below `PROG_LIMIT` end the run in `MemoryFull` there, whatever follows them (R265). -/
theorem State.loadBytes_full {bytes : List Byte} (hr : s.run = .running) (hn : s.loadNext ≤ Config.progLimit)
    (long : Config.progLimit < s.loadNext + bytes.length) :
    (s.loadBytes bytes).run = .faulted (.memoryFull Config.progLimit) := by
  induction bytes generalizing s with
  | nil => exact absurd hn (Nat.not_le.mpr long)
  | cons b rest ih =>
    rw [List.length_cons] at long
    rw [State.loadBytes]
    by_cases full : s.loadNext = Config.progLimit
    · have stopped : (s.raise (.memoryFull s.loadNext)).run ≠ .running := RunState.noConfusion
      rw [State.ramLoad_full b hr full.ge, State.loadBytes_of_not_running stopped, State.raise_run, full]
    · rw [State.ramLoad_appends b hr (by omega)]
      exact ih hr (by simp only; omega) (by simp only; omega)

end Sys2Proof.Machine

/-! The statement about an interrupt's round trip (R236). -/

namespace Sys2Proof.Claims

open Sys2Proof.Machine

/-- Settles O44: the return pops the nine saved bytes in the reverse of the order in which entry pushed them. -/
theorem interruptRoundTripRestoresTheContext : Obligations.InterruptRoundTripRestoresTheContext := by
  intro s t u n inv low allSet room line entered spKept bytesKept
  obtain ⟨enters, -⟩ := interruptEntrySavesTheContextAndVectors s n line
  obtain ⟨t', entered', saved, -, lower, -⟩ := enters inv.memWf allSet (by omega)
  obtain rfl := Host.Outcome.next.inj (entered.symm.trans entered')
  have top : sp s < 256 := (s.reg .r7).isLt
  have below : sp u + 9 = sp s := by omega
  have found : ∀ k, k < 9 → some (u.readByte (sp u + 1 + k)) = (savedBytes s n)[8 - k]? := fun k hk => by
    have place : sp s - (8 - k) = sp u + 1 + k := by omega
    rw [saved (8 - k) (by omega), place, bytesKept _ (by omega) (by omega)]
  obtain ⟨v, returned, spAfter, popped, flags, ip⟩ :=
    State.interruptReturn_ok (s := u) (show 0xE0 ≤ sp u by omega) (show sp u ≤ 0xF6 by omega)
  have restored : ∀ k (hk : k < 7), some (v.reg restoredRegs[k]) = (savedBytes s n)[8 - k]? := fun k hk =>
    (congrArg some (popped k hk)).trans (found k (by omega))
  have servicing : v.servicing = false := by
    obtain ⟨w, a, b, -, rfl⟩ := State.interruptReturn_cases returned
    rfl
  have flagByte : u.readByte (sp u + 8) = s.flags.toByte := Option.some.inj (found 7 (by decide))
  have ipByte : u.readByte (sp u + 9) = trunc8 s.ip := Option.some.inj (found 8 (by decide))
  have runs : exec .iret u = .next v := congrArg (settle u) returned
  refine ⟨v, runs, fun r notStatus => ?_, Option.some.inj (restored 0 (by decide)), ?_, ?_, servicing⟩
  · cases r with
    | r0 => exact Option.some.inj (restored 6 (by decide))
    | r1 => exact Option.some.inj (restored 5 (by decide))
    | r2 => exact Option.some.inj (restored 4 (by decide))
    | r3 => exact Option.some.inj (restored 3 (by decide))
    | r4 => exact Option.some.inj (restored 2 (by decide))
    | r5 => exact Option.some.inj (restored 1 (by decide))
    | r6 => exact absurd rfl notStatus
    | r7 => exact BitVec.eq_of_toNat_eq (spAfter.trans below)
  · exact flags.trans ((congrArg Flags.ofByte flagByte).trans s.flags.ofByte_toByte)
  · have inMemory : s.ip < 256 := Int.lt_add_one_of_le inv.ipHigh
    calc v.ip
      _ = (u.readByte (sp u + 9)).toNat := ip
      _ = s.ip % 256 := by rw [ipByte, toNat_trunc8]
      _ = s.ip := Int.emod_eq_of_lt low inMemory

end Sys2Proof.Claims

/-! SUPPORT. The first poll of a loaded program (R241, R242, R262). -/

namespace Sys2Proof.Machine

variable {s : State}

/-- The timer raises nothing while vector entry 0 is zero, tick or no tick (R241). -/
theorem State.pollTimer_of_eq_zero (off : s.readByte 0xD8 = 0) (tick : Bool) : s.pollTimer tick = s := by
  cases tick with
  | false => exact s.pollTimer_false
  | true => exact State.pollTimer_tick_of_eq_zero off

/-- While the timer is off the poll is the keyboard's (R241, R242). -/
theorem State.poll_of_timer_off (off : s.readByte 0xD8 = 0) : s.poll = s.useDraw.pollKey s.nextDraw.key := by
  have timer : s.useDraw.pollTimer s.nextDraw.tick = s.useDraw := State.pollTimer_of_eq_zero (s := s.useDraw) off _
  rw [State.poll, timer]

/-- A key makes line 1 pending (R242). -/
theorem State.reg_r6_pollKey_of_ne_none {key : Option Byte} (pressed : key ≠ none) :
    (s.pollKey key).reg .r6 = s.reg .r6 ||| 0x02 := by
  obtain ⟨k, rfl⟩ := Option.ne_none_iff_exists'.mp pressed
  exact State.reg_setReg_same _ .r6 _

/-- The canonical form holds after the load of a program of at most 214 bytes (R50, R264). -/
theorem State.loadProgram_resetUnder_memWf (policy : Config.GprReset) (params : Config.Params) {program : List Byte}
    (h : program.length ≤ 214) : ((State.resetUnder policy params).loadProgram program).mem.wf := by
  rw [State.loadProgram_resetUnder policy params h]
  refine Memory.writeFrom_wf Memory.nil_wf ?_
  rw [List.length_append, List.length_singleton, Config.memSize]
  omega

end Sys2Proof.Machine

/-! The statements about the loader's limit, the first iteration and the host's draws (R37, R262, R265, R266). -/

namespace Sys2Proof.Claims

open Sys2Proof.Machine

/-- Settles O48: 214 bytes and the HLT end at `PROG_LIMIT`, and one more does not fit. -/
theorem atMost214ProgramBytesLoad : Obligations.AtMost214ProgramBytesLoad := by
  intro program policy params s
  refine ⟨fun short => ?_, fun long => ?_⟩
  · obtain ⟨-, -, loads, -⟩ := resetLeavesTheStatedValues policy params
    obtain ⟨⟨-, -, -, -, -, ip, -, running, -⟩, image⟩ := loads program short
    have loaded := State.loadProgram_resetUnder policy params short
    refine ⟨running, ip, congrArg State.loadNext loaded, ?_⟩
    rw [List.headD_eq_head?_getD, List.head?_eq_getElem?, ← image 0]
    exact State.fetchByte_at (by decide) (by rw [ip]; rfl)
  · have full : s.run = .faulted (.memoryFull 0xD7) := by
      refine State.loadBytes_full rfl (Nat.zero_le _) ?_
      rw [List.length_append]
      exact Nat.lt_add_left 0x00 (Nat.succ_lt_succ long)
    exact ⟨full, step_ne_next_of_not_running (by rw [full]; exact RunState.noConfusion)⟩

/-- Settles O49: vector entry 0 is still zero, so the poll is the keyboard's, and the mask lets no line through. -/
theorem firstIterationAfterResetRunsTheProgram : Obligations.FirstIterationAfterResetRunsTheProgram := by
  intro program policy params draws n short s
  obtain ⟨-, -, loads, -⟩ := resetLeavesTheStatedValues policy params
  obtain ⟨rows, image⟩ : ResetRows policy s ∧ ∀ k, s.readByte k = ((program ++ [0x01])[k]?).getD 0x00 :=
    loads program short
  obtain ⟨-, mask, status, pointer, flags, ip, servicing, running, -⟩ := rows
  have off : s.readByte 0xD8 = 0 := by
    rw [image, List.getElem?_eq_none (by rw [List.length_append, List.length_singleton]; omega), Option.getD_none]
  have poll := State.poll_of_timer_off off
  have polledMask : s.poll.reg .r5 = 0x00 := (s.reg_poll .r5 (by decide)).trans mask
  have idle : s.poll.preempts = false :=
    s.poll_preempts_eq_false_iff.mpr (.inl (by rw [polledMask]; exact BitVec.zero_and))
  have first : s.poll.readByte 0x00 = (program ++ [0x01]).headD 0x00 := by
    have same := (readByte_poll (State.loadProgram_resetUnder_memWf policy params short) 0x00 (s := s)).resolve_right
      fun ⟨cell, _⟩ => by cases cell
    rw [same, image, List.headD_eq_head?_getD, List.head?_eq_getElem?]
  refine ⟨fun noKey => ?_, fun key => ?_, polledMask, idle, step_of_not_preempts running idle, ?_, ?_,
    s.poll_flags.trans flags, s.poll_servicing.trans servicing⟩
  · rw [poll, noKey]; exact status
  · rw [poll, State.reg_r6_pollKey_of_ne_none key, State.useDraw_reg, status]; rfl
  · rw [State.fetchByte_at (a := 0x00) (by decide) (by rw [State.poll_ip, ip]; rfl), first]; rfl
  · rw [sp, s.reg_poll .r7 (by decide)]; exact congrArg BitVec.toNat pointer

/-- Settles O41: the poll drops the first draw and counts itself, and a silent draw's poll does no more. -/
theorem pollUsesUpItsDraw : Obligations.PollUsesUpItsDraw := by
  intro s
  refine ⟨s.poll_inputs, s.poll_polls, fun d rest fixed => s.nextDraw_fixed fixed, fun free => ?_,
    fun noTick noKey => ?_⟩
  · rw [s.nextDraw_free free]
    exact ⟨rfl, rfl⟩
  · have silent : s.nextDraw = Draw.silent := by rw [Draw.silent, ← noTick, ← noKey]
    rw [s.poll_silent silent]
    exact ⟨fun _ _ => ⟨rfl, rfl⟩, fun _ => rfl, rfl, rfl, rfl, rfl, rfl, rfl, rfl, rfl⟩

end Sys2Proof.Claims
